-- ==== Sys2Proof/Word.lean ====
section
/-! DEFINITION. The value types every other file speaks in (spec/00_scope.md R7, R8). -/

namespace Sys2Proof

/-- A register value or an instruction word: 32 bits, bit 0 least significant (R7, R8). -/
abbrev Word := BitVec 32

/-- A dispatch key: 10 bits (R7, R68). -/
abbrev Key := BitVec 10

/-- The number of a general register: every value of a 5-bit register field names one (R20, R67). -/
abbrev RegIdx := Fin 32

/-- An ordered sequence of 32-bit words, indexed from 0 (R40, R46). -/
abbrev Program := List Word

end Sys2Proof
end

