-- ==== Sys2Proof/Syntax.lean ====
section
/-! DEFINITION. The instructions as syntax: one constructor per row of spec/opcode_table.json, the three
shapes (spec/30_encoding.md R62) and the decoder's view of a word (R61). -/

namespace Sys2Proof

/-- The instructions. Operands stand in assembler order, destination first (R77); a constructor holds exactly
the fields its handler reads (R70). Register numbers, the immediate and the jump field have the exact range of
their fields, so every term is a legal instruction (R67). -/
inductive Instr where
  /-- `add rd, rs, rt` (R110). -/
  | add (rd rs rt : RegIdx)
  /-- `addu rd, rs, rt` (R111). -/
  | addu (rd rs rt : RegIdx)
  /-- `sub rd, rs, rt` (R112). -/
  | sub (rd rs rt : RegIdx)
  /-- `subu rd, rs, rt` (R113). -/
  | subu (rd rs rt : RegIdx)
  /-- `mult rs, rt` (R130). -/
  | mult (rs rt : RegIdx)
  /-- `div rs, rt` (R131). -/
  | div (rs rt : RegIdx)
  /-- `divu rs, rt` (R132). -/
  | divu (rs rt : RegIdx)
  /-- `jr rs` (R154). -/
  | jr (rs : RegIdx)
  /-- `mfhi rd` (R133). -/
  | mfhi (rd : RegIdx)
  /-- `mthi rs` (R134). -/
  | mthi (rs : RegIdx)
  /-- `mflo rd` (R135). -/
  | mflo (rd : RegIdx)
  /-- `mtlo rs` (R136). -/
  | mtlo (rs : RegIdx)
  /-- `addi rt, rs, imm` (R114). -/
  | addi (rt rs : RegIdx) (imm : BitVec 16)
  /-- `addiu rt, rs, imm` (R115). -/
  | addiu (rt rs : RegIdx) (imm : BitVec 16)
  /-- `beq rs, rt, offset` (R150). -/
  | beq (rs rt : RegIdx) (imm : BitVec 16)
  /-- `bne rs, rt, offset` (R151). -/
  | bne (rs rt : RegIdx) (imm : BitVec 16)
  /-- `j target` (R152). -/
  | j (address : BitVec 26)
  /-- `jal target` (R153). -/
  | jal (address : BitVec 26)
  /-- The unsettled `and` (R73, R97): the spec gives it no operands. -/
  | and
  /-- The unsettled `or` (R73, R97). -/
  | or
  /-- The unsettled `xor` (R73, R97). -/
  | xor
  /-- The unsettled `nor` (R73, R97). -/
  | nor
  /-- The unsettled `andi` (R73, R97). -/
  | andi
  /-- The unsettled `ori` (R73, R97). -/
  | ori
deriving DecidableEq, Repr

/-- The three field layouts (R62). -/
inductive Shape where
  | r
  | i
  | j
deriving DecidableEq, Repr

/-- The shape of the handler an instruction runs: the Format column of R69 (for the unsettled rows, of
spec/opcode_table.json). -/
def Instr.shape : Instr → Shape
  | .add .. | .addu .. | .sub .. | .subu .. | .mult .. | .div .. | .divu .. => .r
  | .jr .. | .mfhi .. | .mthi .. | .mflo .. | .mtlo .. => .r
  | .addi .. | .addiu .. | .beq .. | .bne .. => .i
  | .j .. | .jal .. => .j
  | .and | .or | .xor | .nor => .r
  | .andi | .ori => .i

/-- What the decoder reads from a word: every field of every shape (R61, R63). -/
structure InstructionView where
  opcode  : BitVec 6
  rs      : RegIdx
  rt      : RegIdx
  rd      : RegIdx
  shamt   : BitVec 5
  funct   : BitVec 6
  imm     : BitVec 16
  address : BitVec 26
deriving DecidableEq, Repr

end Sys2Proof
end

