-- ==== Sys2Proof/Decode.lean ====
section
/-! DEFINITION. From words to instructions and back: field extraction (spec/30_encoding.md R61, R63), the
dispatch key (R68), the dispatch table (R69), the unsettled keys (R73), the decoder, and the encoder written
from the same shapes (R62). -/

namespace Sys2Proof

/-- The register a 5-bit field names (R67). -/
def regOf (b : BitVec 5) : RegIdx := b.toFin

/-- The 5-bit field that names a register (R67). -/
def regBits (r : RegIdx) : BitVec 5 := BitVec.ofFin r

/-- Every field of a word, by fixed bit positions; total and pure (R61, R63). -/
def instructionView (w : Word) : InstructionView where
  opcode  := w.extractLsb 31 26
  rs      := regOf (w.extractLsb 25 21)
  rt      := regOf (w.extractLsb 20 16)
  rd      := regOf (w.extractLsb 15 11)
  shamt   := w.extractLsb 10 6
  funct   := w.extractLsb 5 0
  imm     := w.extractLsb 15 0
  address := w.extractLsb 25 0

/-- The key of an opcode and a function field (R68): `funct << 4` when the opcode is 0, else the opcode. -/
def keyOf (opcode funct : BitVec 6) : Key :=
  if opcode = 0#6 then funct.setWidth 10 <<< 4 else opcode.setWidth 10

/-- The dispatch key of a word (R68). -/
def dispatchKey (w : Word) : Key :=
  keyOf (instructionView w).opcode (instructionView w).funct

/-- One row of a table: a key and the instruction it selects, built from the word's fields. -/
structure DispatchRow where
  key   : Key
  build : InstructionView → Instr

/-- The rows of R69 selected by a function field. -/
def specialRows : List DispatchRow :=
  [ ⟨0x200#10, fun v => .add v.rd v.rs v.rt⟩,
    ⟨0x210#10, fun v => .addu v.rd v.rs v.rt⟩,
    ⟨0x220#10, fun v => .sub v.rd v.rs v.rt⟩,
    ⟨0x230#10, fun v => .subu v.rd v.rs v.rt⟩,
    ⟨0x180#10, fun v => .mult v.rs v.rt⟩,
    ⟨0x1A0#10, fun v => .div v.rs v.rt⟩,
    ⟨0x1B0#10, fun v => .divu v.rs v.rt⟩,
    ⟨0x080#10, fun v => .jr v.rs⟩,
    ⟨0x100#10, fun v => .mfhi v.rd⟩,
    ⟨0x110#10, fun v => .mthi v.rs⟩,
    ⟨0x120#10, fun v => .mflo v.rd⟩,
    ⟨0x130#10, fun v => .mtlo v.rs⟩ ]

/-- The rows of R69 selected by the primary opcode. -/
def primaryRows : List DispatchRow :=
  [ ⟨0x008#10, fun v => .addi v.rt v.rs v.imm⟩,
    ⟨0x009#10, fun v => .addiu v.rt v.rs v.imm⟩,
    ⟨0x004#10, fun v => .beq v.rs v.rt v.imm⟩,
    ⟨0x005#10, fun v => .bne v.rs v.rt v.imm⟩,
    ⟨0x002#10, fun v => .j v.address⟩,
    ⟨0x003#10, fun v => .jal v.address⟩ ]

/-- The dispatch table: exactly these eighteen entries, a constant and no state (R31, R69). -/
def dispatchTable : List DispatchRow := specialRows ++ primaryRows

/-- The six unsettled keys (R73), whose words are refused (R97). -/
def unsettledTable : List DispatchRow :=
  [ ⟨0x240#10, fun _ => .and⟩,
    ⟨0x250#10, fun _ => .or⟩,
    ⟨0x260#10, fun _ => .xor⟩,
    ⟨0x270#10, fun _ => .nor⟩,
    ⟨0x00C#10, fun _ => .andi⟩,
    ⟨0x00D#10, fun _ => .ori⟩ ]

/-- The keys of R69. -/
def tableKeys : List Key := dispatchTable.map (·.key)

/-- The keys of R73. -/
def unsettledKeys : List Key := unsettledTable.map (·.key)

/-- What a word is: an instruction of the opcode table, or a word whose key is unmapped (R72), which the block
executes as a one-word no-op (R95). -/
inductive Decoded where
  | instr (i : Instr)
  | unmapped (k : Key)
deriving DecidableEq, Repr

/-- The row a key selects. -/
def lookup (rows : List DispatchRow) (k : Key) : Option DispatchRow :=
  rows.find? (fun r => r.key == k)

/-- The decoder: total on every word; the key alone selects (R70), and a word without a handler is named by its
key. -/
def decode (w : Word) : Decoded :=
  match lookup (dispatchTable ++ unsettledTable) (dispatchKey w) with
  | some row => .instr (row.build (instructionView w))
  | none => .unmapped (dispatchKey w)

/-! ### The encoder -/

/-- An R-shape word with opcode 0 and `shamt` 0 (R62). -/
def encodeR (funct : BitVec 6) (rs rt rd : RegIdx) : Word :=
  0#6 ++ regBits rs ++ regBits rt ++ regBits rd ++ 0#5 ++ funct

/-- An I-shape word (R62). -/
def encodeI (opcode : BitVec 6) (rs rt : RegIdx) (imm : BitVec 16) : Word :=
  opcode ++ regBits rs ++ regBits rt ++ imm

/-- A J-shape word (R62). -/
def encodeJ (opcode : BitVec 6) (address : BitVec 26) : Word := opcode ++ address

/-- The word of an instruction, with 0 in every field its handler does not read (R69, R70). -/
def encode : Instr → Word
  | .add rd rs rt => encodeR 0x20#6 rs rt rd
  | .addu rd rs rt => encodeR 0x21#6 rs rt rd
  | .sub rd rs rt => encodeR 0x22#6 rs rt rd
  | .subu rd rs rt => encodeR 0x23#6 rs rt rd
  | .mult rs rt => encodeR 0x18#6 rs rt 0
  | .div rs rt => encodeR 0x1A#6 rs rt 0
  | .divu rs rt => encodeR 0x1B#6 rs rt 0
  | .jr rs => encodeR 0x08#6 rs 0 0
  | .mfhi rd => encodeR 0x10#6 0 0 rd
  | .mthi rs => encodeR 0x11#6 rs 0 0
  | .mflo rd => encodeR 0x12#6 0 0 rd
  | .mtlo rs => encodeR 0x13#6 rs 0 0
  | .addi rt rs imm => encodeI 0x08#6 rs rt imm
  | .addiu rt rs imm => encodeI 0x09#6 rs rt imm
  | .beq rs rt imm => encodeI 0x04#6 rs rt imm
  | .bne rs rt imm => encodeI 0x05#6 rs rt imm
  | .j address => encodeJ 0x02#6 address
  | .jal address => encodeJ 0x03#6 address
  | .and => encodeR 0x24#6 0 0 0
  | .or => encodeR 0x25#6 0 0 0
  | .xor => encodeR 0x26#6 0 0 0
  | .nor => encodeR 0x27#6 0 0 0
  | .andi => encodeI 0x0C#6 0 0 0#16
  | .ori => encodeI 0x0D#6 0 0 0#16

/-- The bits of a word that matter to an instruction: those that select its key and those of the fields its handler
reads. Every other bit is ignored (R69's masks, R70). -/
def fieldMask : Instr → Word
  | .add .. | .addu .. | .sub .. | .subu .. => 0xFFFFF83F#32
  | .mult .. | .div .. | .divu .. => 0xFFFF003F#32
  | .jr .. | .mthi .. | .mtlo .. => 0xFFE0003F#32
  | .mfhi .. | .mflo .. => 0xFC00F83F#32
  | .addi .. | .addiu .. | .beq .. | .bne .. => 0xFFFFFFFF#32
  | .j .. | .jal .. => 0xFFFFFFFF#32
  | .and | .or | .xor | .nor => 0xFC00003F#32
  | .andi | .ori => 0xFC000000#32

/-- The key an instruction's words have: the key column of R69, and the keys of R73. -/
def Instr.key : Instr → Key
  | .add .. => 0x200#10
  | .addu .. => 0x210#10
  | .sub .. => 0x220#10
  | .subu .. => 0x230#10
  | .mult .. => 0x180#10
  | .div .. => 0x1A0#10
  | .divu .. => 0x1B0#10
  | .jr .. => 0x080#10
  | .mfhi .. => 0x100#10
  | .mthi .. => 0x110#10
  | .mflo .. => 0x120#10
  | .mtlo .. => 0x130#10
  | .addi .. => 0x008#10
  | .addiu .. => 0x009#10
  | .beq .. => 0x004#10
  | .bne .. => 0x005#10
  | .j .. => 0x002#10
  | .jal .. => 0x003#10
  | .and => 0x240#10
  | .or => 0x250#10
  | .xor => 0x260#10
  | .nor => 0x270#10
  | .andi => 0x00C#10
  | .ori => 0x00D#10

/-! ### The host's view of the opcode table -/

/-- The one instruction word whose low `nbits` bits are those of `w` and whose other bits are 0. The block sees whole
words, so no byte order enters (R46). -/
def tableWord (nbits w : Nat) : Word := BitVec.ofNat 32 (w % 2 ^ nbits)

/-- The instruction the decoder reads from a word numbered as spec/opcode_table.json numbers it. -/
def decodeTableWord (nbits w : Nat) : Option Instr :=
  match decode (tableWord nbits w) with
  | .instr i => some i
  | .unmapped _ => none

end Sys2Proof
end

