-- ==== Sys2Proof/Config.lean ====
section
/-! DEFINITION. What this implementation fixes: the parameters of spec/00_scope.md R7 that a model may take
as parameters. The spec leaves no value free (spec/93_implementation_defined.md, section 1), so there is no
opaque constant here. -/

namespace Sys2Proof

/-- The two readings of `mult` the spec names (R130; 92_eei_decisions.md D1). -/
inductive MultMode where
  /-- The product truncated to 32 bits, then sign-extended to `HI:LO`. -/
  | legacy32
  /-- The true 64-bit signed product. -/
  | full64
deriving DecidableEq, Repr

/-- `MULT_MODE` of this hardware (R7, D1). -/
def Config.multMode : MultMode := .legacy32

/-- `N_MAX`, the most words a bound Program may have (R7, D11). -/
def Config.nMax : Nat := 2 ^ 29 - 1

/-- The value of `PC` and of `nPC` after construction, `reset()` and `loadProgram` (R33). -/
def Config.resetPc : Word := 4#32

/-- The one architected link register, `GPR[31]` (R153, R158). -/
def Config.linkReg : RegIdx := 31

end Sys2Proof
end

