-- ==== Sys2Proof/Machine/Operands.lean ====
section
/-! DEFINITION. The operand forms (spec/30_encoding.md R64 to R67; spec/43_control.md R152, R153) and the results of
multiply and divide (spec/42_muldiv.md R130 to R132). -/

namespace Sys2Proof.Machine

/-- `sext_16`: bits 31..16 copy bit 15 (R9, R64). -/
def sext16 (imm : BitVec 16) : Word := imm.signExtend 32

/-- `zext_16` (R9, R64): the unsigned immediate, which no admitted handler uses. -/
def zext16 (imm : BitVec 16) : Word := imm.setWidth 32

/-- `sext_32to64` (R9). -/
def sext32to64 (v : Word) : BitVec 64 := v.signExtend 64

/-- The byte offset of a branch, `simm << 2` in 32 bits (R65). -/
def branchOffset (imm : BitVec 16) : Word := sext16 imm <<< 2

/-- The jump field shifted once, a 28-bit value (R66), in 32 bits. -/
def jumpField (address : BitVec 26) : Word := address.setWidth 32 <<< 2

/-- The region bits of a jump, from the pre-jump `PC` (R152; C7, D9). -/
def jumpRegion (pcOld : Word) : Word := pcOld &&& 0xF0000000#32

/-- The `nPC` a taken branch sets (R150, R151). -/
def branchTarget (npcOld : Word) (imm : BitVec 16) : Word := npcOld + 4#32 + branchOffset imm

/-- The `nPC` that `j` and `jal` set: the bias applies after the OR (R152; C11, D10). -/
def jumpTarget (pcOld : Word) (address : BitVec 26) : Word :=
  (jumpRegion pcOld ||| jumpField address) + 4#32

/-- The link value of `jal` (R153). -/
def linkValue (pcOld : Word) : Word := pcOld + 4#32

/-- The `nPC` that `jr` sets from a plain address (R154, R157). -/
def registerTarget (g : Word) : Word := g + 4#32

/-- `quot_t`: the quotient truncated toward zero (R9). -/
def quotT (a b : Int) : Int := a.tdiv b

/-- `rem_t` (R9). -/
def remT (a b : Int) : Int := a - b * quotT a b

/-- The 64 bits `mult` writes to `HI:LO` (R130): the spec's `legacy32`, or the alternative it names. -/
def multResult (mode : MultMode) (a b : Word) : BitVec 64 :=
  match mode with
  | .legacy32 => sext32to64 (a * b)
  | .full64 => BitVec.ofInt 64 (a.toInt * b.toInt)

/-- The high word of a 64-bit value: what `HI` receives (R130). -/
def highWord (v : BitVec 64) : Word := v.extractLsb 63 32

/-- The low word of a 64-bit value: what `LO` receives (R130). -/
def lowWord (v : BitVec 64) : Word := v.extractLsb 31 0

/-- The quotient of `div` (R131). -/
def divQuotient (a b : Word) : Word := BitVec.ofInt 32 (quotT a.toInt b.toInt)

/-- The remainder of `div` (R131). -/
def divRemainder (a b : Word) : Word := BitVec.ofInt 32 (remT a.toInt b.toInt)

/-- The quotient of `divu` (R132). -/
def divuQuotient (a b : Word) : Word := BitVec.ofNat 32 (a.toNat / b.toNat)

/-- The remainder of `divu` (R132). -/
def divuRemainder (a b : Word) : Word := BitVec.ofNat 32 (a.toNat - b.toNat * (a.toNat / b.toNat))

/-- The one operand pair whose signed quotient does not fit in 32 bits (R183). -/
def quotientOverflows (a b : Word) : Bool := a == 0x80000000#32 && b == 0xFFFFFFFF#32

end Sys2Proof.Machine
end

