-- ==== Sys2Proof/Machine/State.lean ====
section
/-! DEFINITION. The block's whole state as plain data (spec/10_state.md), the reasons a step stops, and the state
after construction (R33). -/

namespace Sys2Proof.Machine

/-- The faults (R181 to R183). Each stops the block with nothing written but the stop record (R184). -/
inductive Fault where
  /-- Raised by `div` and `divu` when `x[rt] = 0` (R182). The spec's own decision D4 for a value its source leaves
  undefined. Safe: the model stops as the spec does, and gives no value. -/
  | divideByZero
  /-- Raised by `div` on `0x80000000 / 0xFFFFFFFF` (R183). The spec's own decision D5. Safe, as above. -/
  | divideOverflow
deriving DecidableEq, Repr

/-- Why no step is enabled (R90, R181). -/
inductive NotEnabled where
  /-- No program is bound (R30 *idle*). -/
  | idle
  /-- A fault or a refusal is recorded (R184, R186). -/
  | stopped
  /-- The fetch index is outside the Program (R100): the normal end of a run. -/
  | halted
deriving DecidableEq, Repr

/-- The refusals. -/
inductive Refusal where
  /-- An instruction the model gives no meaning yet. Raised by no arm. Safe. -/
  | notModelled (mnemonic : String)
  /-- Raised by the six unsettled words (R73, R97, R186): the spec gives them no meaning. Safe: nothing follows about
  what the hardware does there. -/
  | unsettledKey (k : Key)
  /-- Raised by `step` and by no instruction, in a state where no step is enabled (R90): the block does nothing until
  the host acts. Safe: no next state is claimed (log entry 3). -/
  | notEnabled (why : NotEnabled)
deriving DecidableEq, Repr

/-- What the block records when it stops abnormally (R30). -/
inductive Stop where
  /-- `fault <Reason>` (R182, R183). -/
  | fault (reason : Fault)
  /-- `refuse UnsettledKey(k)` (R186). -/
  | refuse (k : Key)
deriving DecidableEq, Repr

/-- The block's one address space: the instruction store, a bound Program or none (R30, R40). A Program is a list of
whole words (R46), so equal stores are equal data. -/
abbrev Memory := Option Program

/-- The store's form: a bound Program has at most `N_MAX` words (R7, R203). -/
def Memory.wf (m : Memory) : Bool :=
  match m with
  | none => true
  | some p => decide (p.length ≤ Config.nMax)

/-- Everything the spec gives the block. -/
structure State where
  /-- `GPR[0..31]` (R20); none is hard-wired (R21). -/
  gpr  : Vector Word 32
  /-- The accumulator `HI` (R23). -/
  hi   : Word
  /-- The accumulator `LO` (R23). -/
  lo   : Word
  /-- `PC`, the biased address of the word just executed (R24). -/
  pc   : Word
  /-- `nPC`, the biased address of the word to execute next (R24). -/
  npc  : Word
  /-- The unused floating-point slots (R27). -/
  fpr  : Vector Word 32
  /-- The unused `FCSR` (R27). -/
  fcsr : Word
  /-- The bound Program, `none` when idle (R30, R32). -/
  prog : Memory
  /-- The recorded stop (R30). -/
  stop : Option Stop
deriving DecidableEq, Repr

/-- The state after construction: every register zero except `PC = nPC = 4`, no Program bound, no stop (R33, R201). -/
def State.reset : State where
  gpr  := Vector.replicate 32 0#32
  hi   := 0#32
  lo   := 0#32
  pc   := Config.resetPc
  npc  := Config.resetPc
  fpr  := Vector.replicate 32 0#32
  fcsr := 0#32
  prog := none
  stop := none

/-- What one step ends in (R181). -/
abbrev StepResult := Host.Outcome State Fault Refusal

end Sys2Proof.Machine
end

