-- ==== Sys2Proof/WellFormed.lean ====
section
/-! DEFINITION. The checks the block makes on what is given to it. An instruction needs none: R67 makes every
register field legal, R70 checks no other field, and the types of `Instr` hold each operand in its field's range.
What the spec has the block check is what a host hands it: a Program's length (R203) and a register index
(R204, R205). -/

namespace Sys2Proof

/-- A Program the block accepts: at most `N_MAX` words; the words themselves are not read or checked (R203). -/
def Program.wf (p : Program) : Bool := decide (p.length ≤ Config.nMax)

/-- The register a host's index names: 0 to 31, any other index rejected (R204, R205; D8). -/
def hostReg? (index : Int) : Option RegIdx :=
  if h : 0 ≤ index ∧ index < 32 then some ⟨index.toNat, by omega⟩ else none

end Sys2Proof
end

