-- ==== Sys2Proof/Machine/Ops.lean ====
section
/-! DEFINITION. The named operations over the state: register access (spec/00_scope.md R10), the fetch port
(spec/20_memory.md R41), the two program-counter updates (spec/40_dispatch.md R92, R93), recording a stop
(spec/60_exceptions.md R181, R184, R186) and the host's operations on the registers and the binding
(spec/70_reset_and_hazards.md R200 to R205). -/

namespace Sys2Proof.Machine

/-! ### The fetch port -/

/-- `fetch_index(nPC)`, a mathematical integer (R41). -/
def fetchIndex (npc : Word) : Int := (npc.toNat / 4 : Nat) - 1

/-- The word at an index of a store; nothing outside `[0, N)` and nothing when no Program is bound (R40, R41). -/
def Memory.wordAt (m : Memory) (i : Int) : Option Word :=
  match m with
  | none => none
  | some p => if 0 ≤ i then p[i.toNat]? else none

/-- `in_bounds(nPC)` for a Program of `n` words (R41). -/
def inBounds (n : Nat) (npc : Word) : Bool :=
  decide (0 ≤ fetchIndex npc) && decide (fetchIndex npc < n)

namespace State

/-- The word at an index of the bound Program (R41). -/
def wordAt (s : State) (i : Int) : Option Word := Memory.wordAt s.prog i

/-- `fetch_index` of this state (R41). -/
def index (s : State) : Int := fetchIndex s.npc

/-- A step is enabled: a Program is bound, no stop is recorded and the fetch index is in bounds (R90). -/
def enabled (s : State) : Bool :=
  match s.prog with
  | none => false
  | some p => s.stop.isNone && inBounds p.length s.npc

/-- The word the next step executes, or why no step is enabled (R90, R91). -/
def fetch (s : State) : Except NotEnabled Word :=
  match s.prog, s.stop with
  | none, _ => .error .idle
  | some _, some _ => .error .stopped
  | some _, none =>
    match s.wordAt s.index with
    | none => .error .halted
    | some w => .ok w

/-! ### Registers -/

/-- `x[i]` (R10). -/
def readGpr (s : State) (r : RegIdx) : Word := s.gpr[r]

/-- `x[i] <- v`: every write is kept, register 0 included (R10, R21). -/
def writeGpr (s : State) (r : RegIdx) (v : Word) : State := { s with gpr := s.gpr.set r v }

/-- `HI <- v` (R10). -/
def writeHi (s : State) (v : Word) : State := { s with hi := v }

/-- `LO <- v` (R10). -/
def writeLo (s : State) (v : Word) : State := { s with lo := v }

/-! ### The program-counter pair -/

/-- The default advance (R92). -/
def defaultAdvance (s : State) : State := { s with pc := s.npc, npc := s.npc + 4#32 }

/-- The update of a control-flow handler: `PC <- nPC_old; nPC <- target` (R93, R150 to R154). -/
def redirect (s : State) (target : Word) : State := { s with pc := s.npc, npc := target }

/-! ### Stopping -/

/-- Taking a stop: only the stop record is written, nothing is saved and control goes nowhere (R184, R186). -/
def recordStop (s : State) (why : Stop) : State := { s with stop := some why }

/-- The block's state once a step from `s` has ended in `o` (R181): the next state, or `s` with its stop recorded.
Where no step was enabled nothing changes (R90). -/
def afterOutcome (s : State) (o : StepResult) : State :=
  match o with
  | .next t => t
  | .fault r => s.recordStop (.fault r)
  | .refused (.unsettledKey k) => s.recordStop (.refuse k)
  | .refused _ => s

/-! ### The host's operations that run no step -/

/-- `reset()`: the registers at their reset values, no stop, the binding kept (R33, R200). -/
def hostReset (s : State) : State := { State.reset with prog := s.prog }

/-- `loadProgram(seq)`: binds, resets the registers and clears the stop; rejected when too long (R33, R203). -/
def loadProgram? (seq : Program) : Option State :=
  if seq.wf then some { State.reset with prog := some seq } else none

/-- `setGPR(index, value)`: rejected outside 0..31 (R204). -/
def setGpr? (s : State) (index : Int) (value : Word) : Option State :=
  (hostReg? index).map fun r => s.writeGpr r value

/-- `gprValue(index)`: the signed reading, rejected outside 0..31 (R205). -/
def gprValue? (s : State) (index : Int) : Option Int :=
  (hostReg? index).map fun r => (s.readGpr r).toInt

/-- `hi()` (R205). -/
def hiValue (s : State) : Int := s.hi.toInt

/-- `lo()` (R205). -/
def loValue (s : State) : Int := s.lo.toInt

end State

/-! ### Placing one word where the next step fetches it -/

/-- A Program with word `w` at index `i`; a Program too short for it is extended with the word 0, a no-op (R74). -/
def Program.put : Program → Nat → Word → Program
  | [], 0, w => [w]
  | [], i + 1, w => 0#32 :: Program.put [] i w
  | _ :: p, 0, w => w :: p
  | x :: p, i + 1, w => x :: Program.put p i w

/-- The fetch index of `nPC` can be in bounds for some Program the block accepts (R41, R203). -/
def fetchable (npc : Word) : Bool := inBounds Config.nMax npc

/-- The state in which the next step fetches `w`: the word placed at the fetch index of the bound Program, any recorded
stop cleared, and `nPC` at its reset value where no Program could be fetched from (log entry 4). -/
def State.placeWord (s : State) (w : Word) : State :=
  let npc := if fetchable s.npc then s.npc else Config.resetPc
  { s with
    npc := npc
    prog := some (Program.put (s.prog.getD []) (fetchIndex npc).toNat w)
    stop := none }

end Sys2Proof.Machine
end

