-- ==== Sys2Proof/Machine/Alu.lean ====
section
/-! DEFINITION. Integer add and subtract (spec/41_alu.md R110 to R115): 32 bits modulo `2^32`, no trap, then the default
advance. -/

namespace Sys2Proof.Machine

/-- Write one general register and advance: the end of every handler of this family (R93). -/
def writeAndAdvance (s : State) (r : RegIdx) (v : Word) : StepResult :=
  .next (s.writeGpr r v).defaultAdvance

/-- R110. -/
def execAdd (rd rs rt : RegIdx) (s : State) : StepResult :=
  writeAndAdvance s rd (s.readGpr rs + s.readGpr rt)

/-- R111. -/
def execAddu (rd rs rt : RegIdx) (s : State) : StepResult :=
  writeAndAdvance s rd (s.readGpr rs + s.readGpr rt)

/-- R112. -/
def execSub (rd rs rt : RegIdx) (s : State) : StepResult :=
  writeAndAdvance s rd (s.readGpr rs - s.readGpr rt)

/-- R113. -/
def execSubu (rd rs rt : RegIdx) (s : State) : StepResult :=
  writeAndAdvance s rd (s.readGpr rs - s.readGpr rt)

/-- R114. -/
def execAddi (rt rs : RegIdx) (imm : BitVec 16) (s : State) : StepResult :=
  writeAndAdvance s rt (s.readGpr rs + sext16 imm)

/-- R115. -/
def execAddiu (rt rs : RegIdx) (imm : BitVec 16) (s : State) : StepResult :=
  writeAndAdvance s rt (s.readGpr rs + sext16 imm)

end Sys2Proof.Machine
end

