-- ==== Sys2Proof/Machine/Control.lean ====
section
/-! DEFINITION. Branches and jumps (spec/43_control.md R150 to R154). No delay-slot word executes: the next word fetched
is the target (R156). -/

namespace Sys2Proof.Machine

/-- Redirect when taken, else the default advance (R93). -/
def branchIf (taken : Bool) (s : State) (imm : BitVec 16) : StepResult :=
  if taken then .next (s.redirect (branchTarget s.npc imm)) else .next s.defaultAdvance

/-- R150. -/
def execBeq (rs rt : RegIdx) (imm : BitVec 16) (s : State) : StepResult :=
  branchIf (s.readGpr rs == s.readGpr rt) s imm

/-- R151. -/
def execBne (rs rt : RegIdx) (imm : BitVec 16) (s : State) : StepResult :=
  branchIf (s.readGpr rs != s.readGpr rt) s imm

/-- R152. -/
def execJ (address : BitVec 26) (s : State) : StepResult :=
  .next (s.redirect (jumpTarget s.pc address))

/-- R153: the link is the pre-jump `PC + 4`. -/
def execJal (address : BitVec 26) (s : State) : StepResult :=
  .next ((s.writeGpr Config.linkReg (linkValue s.pc)).redirect (jumpTarget s.pc address))

/-- R154. -/
def execJr (rs : RegIdx) (s : State) : StepResult :=
  .next (s.redirect (registerTarget (s.readGpr rs)))

end Sys2Proof.Machine
end

