-- ==== Sys2Proof/Machine/MulDiv.lean ====
section
/-! DEFINITION. Multiply, divide and the moves to and from `HI` and `LO` (spec/42_muldiv.md R130 to R136). Each finishes
inside its own step (R137). -/

namespace Sys2Proof.Machine

/-- Write both accumulators and advance. -/
def writeHiLoAndAdvance (s : State) (hi lo : Word) : StepResult :=
  .next ((s.writeHi hi).writeLo lo).defaultAdvance

/-- R130. -/
def execMult (rs rt : RegIdx) (s : State) : StepResult :=
  let p := multResult Config.multMode (s.readGpr rs) (s.readGpr rt)
  writeHiLoAndAdvance s (highWord p) (lowWord p)

/-- R131: the divisor-zero test comes first (R187). -/
def execDiv (rs rt : RegIdx) (s : State) : StepResult :=
  let a := s.readGpr rs
  let b := s.readGpr rt
  if b = 0#32 then .fault .divideByZero
  else if quotientOverflows a b then .fault .divideOverflow
  else writeHiLoAndAdvance s (divRemainder a b) (divQuotient a b)

/-- R132. -/
def execDivu (rs rt : RegIdx) (s : State) : StepResult :=
  let a := s.readGpr rs
  let b := s.readGpr rt
  if b = 0#32 then .fault .divideByZero
  else writeHiLoAndAdvance s (divuRemainder a b) (divuQuotient a b)

/-- R133. -/
def execMfhi (rd : RegIdx) (s : State) : StepResult := writeAndAdvance s rd s.hi

/-- R134. -/
def execMthi (rs : RegIdx) (s : State) : StepResult := .next (s.writeHi (s.readGpr rs)).defaultAdvance

/-- R135. -/
def execMflo (rd : RegIdx) (s : State) : StepResult := writeAndAdvance s rd s.lo

/-- R136. -/
def execMtlo (rs : RegIdx) (s : State) : StepResult := .next (s.writeLo (s.readGpr rs)).defaultAdvance

end Sys2Proof.Machine
end

