-- ==== Sys2Proof/Machine/Unsettled.lean ====
section
/-! DEFINITION. Words without a handler: the six unsettled logical instructions, which the spec refuses
(spec/40_dispatch.md R97), and the unmapped words, which execute as one-word no-ops (R95). -/

namespace Sys2Proof.Machine

/-- The refusal of an unsettled key (R97, R186). -/
def refuseKey (k : Key) : StepResult := .refused (.unsettledKey k)

/-- R97, key of R73. -/
def execAnd (_ : State) : StepResult := refuseKey 0x240#10

/-- R97, key of R73. -/
def execOr (_ : State) : StepResult := refuseKey 0x250#10

/-- R97, key of R73. -/
def execXor (_ : State) : StepResult := refuseKey 0x260#10

/-- R97, key of R73. -/
def execNor (_ : State) : StepResult := refuseKey 0x270#10

/-- R97, key of R73. -/
def execAndi (_ : State) : StepResult := refuseKey 0x00C#10

/-- R97, key of R73. -/
def execOri (_ : State) : StepResult := refuseKey 0x00D#10

/-- An unmapped word: the default advance and nothing else, whatever its key (R95, R96). -/
def execUnmapped (_ : Key) (s : State) : StepResult := .next s.defaultAdvance

end Sys2Proof.Machine
end

