-- ==== Sys2Proof/Machine/Step.lean ====
section
/-! DEFINITION. One step (spec/40_dispatch.md R91): fetch, decode, then the handler, the refusal or the no-op. -/

namespace Sys2Proof.Machine

/-- One step. Where none is enabled (R90) it names why. -/
def step (s : State) : Host.Outcome State Fault Refusal :=
  match s.fetch with
  | .error why => .refused (.notEnabled why)
  | .ok w =>
    match decode w with
    | .instr i => exec i s
    | .unmapped k => execUnmapped k s

/-- The state whose very next step fetches the word that spec/opcode_table.json numbers `w`: it stands for the host's
`loadProgram` (R203, R208; log entry 4). -/
def State.withFetchWord (s : State) (nbits w : Nat) : State := s.placeWord (tableWord nbits w)

end Sys2Proof.Machine
end

