-- ==== Sys2Proof/Machine/Run.lean ====
section
/-! DEFINITION. Run control (spec/40_dispatch.md R98, R99) and the host's calls as transitions of the block
(spec/00_scope.md R5; spec/70_reset_and_hazards.md R209). -/

namespace Sys2Proof.Machine

/-- The `n` of `stepProgram()`: `stepProgram(n := 1)` (R99). -/
def defaultSteps : Nat := 1

namespace State

/-- One step as the block takes it, its stop recorded when it ends in one (R181, R184, R186). -/
def engineStep (s : State) : State := s.afterOutcome (step s)

/-- `stepProgram(n)`: at most `n` steps, stopping early when none is enabled; with no `n`, `defaultSteps` (R99). -/
def stepProgram : (n : Nat := defaultSteps) → State → State
  | 0, s => s
  | n + 1, s => if s.enabled then stepProgram n s.engineStep else s

/-- `runProgram()` under fuel: the state it leaves, or nothing when it has not returned within `fuel` steps
(R98, R214). -/
def runProgram : Nat → State → Option State
  | 0, s => if s.enabled then none else some s
  | fuel + 1, s => if s.enabled then runProgram fuel s.engineStep else some s

end State

/-- The host's calls (R5, R209). `runProgram` carries the fuel a model runs it under (R214). -/
inductive HostCall where
  | loadProgram (seq : Program)
  | runProgram (fuel : Nat)
  | stepProgram (n : Nat := defaultSteps)
  | reset
  | setGPR (index : Int) (value : Word)
  | gprValue (index : Int)
  | hi
  | lo
deriving DecidableEq, Repr

/-- What the host gets back (R209). -/
inductive HostReply where
  /-- The call returns, with no value. -/
  | returned
  /-- An accessor's `i32` (R205). -/
  | value (v : Int)
  /-- The call is rejected and changes nothing (R203 to R205). -/
  | rejected
  /-- `runProgram` is still executing when the fuel ends (R214; log entry 5). -/
  | running
deriving DecidableEq, Repr

/-- A call that either yields a new state or is rejected, changing nothing. -/
def State.acceptOrReject (s : State) (t? : Option State) : HostReply × State :=
  match t? with
  | some t => (.returned, t)
  | none => (.rejected, s)

/-- One host call as a transition of the block (R5). -/
def State.call (s : State) (c : HostCall) : HostReply × State :=
  match c with
  | .loadProgram seq => s.acceptOrReject (State.loadProgram? seq)
  | .runProgram fuel =>
    match s.runProgram fuel with
    | some t => (.returned, t)
    | none => (.running, s.stepProgram fuel)
  | .stepProgram n => (.returned, s.stepProgram n)
  | .reset => (.returned, s.hostReset)
  | .setGPR index value => s.acceptOrReject (s.setGpr? index value)
  | .gprValue index =>
    match s.gprValue? index with
    | some v => (.value v, s)
    | none => (.rejected, s)
  | .hi => (.value s.hiValue, s)
  | .lo => (.value s.loValue, s)

/-- A sequence of host calls, in order; the replies are dropped. -/
def State.calls : List HostCall → State → State
  | [], s => s
  | c :: cs, s => State.calls cs (s.call c).2

end Sys2Proof.Machine
end

