-- ==== Sys2Proof/Safety.lean ====
section
/-! DEFINITION. The terms claims are made in: the engine's states (spec/10_state.md R30), the end of a run
(spec/40_dispatch.md R102), frames, the footprints of instructions (R22, R23, R25), and the invariant every step keeps. -/

namespace Sys2Proof

/-! ### Footprints -/

/-- The general registers an instruction reads (R22). -/
def Instr.gprReads : Instr → List RegIdx
  | .add _ rs rt | .addu _ rs rt | .sub _ rs rt | .subu _ rs rt => [rs, rt]
  | .mult rs rt | .div rs rt | .divu rs rt => [rs, rt]
  | .addi _ rs _ | .addiu _ rs _ => [rs]
  | .mthi rs | .mtlo rs | .jr rs => [rs]
  | .beq rs rt _ | .bne rs rt _ => [rs, rt]
  | .mfhi _ | .mflo _ | .j _ | .jal _ => []
  | .and | .or | .xor | .nor | .andi | .ori => []

/-- The general registers an instruction writes (R22). -/
def Instr.gprWrites : Instr → List RegIdx
  | .add rd _ _ | .addu rd _ _ | .sub rd _ _ | .subu rd _ _ => [rd]
  | .mfhi rd | .mflo rd => [rd]
  | .addi rt _ _ | .addiu rt _ _ => [rt]
  | .jal _ => [31]
  | .mult .. | .div .. | .divu .. | .mthi _ | .mtlo _ | .jr _ => []
  | .beq .. | .bne .. | .j _ => []
  | .and | .or | .xor | .nor | .andi | .ori => []

/-- The writers of `HI` (R23). -/
def Instr.writesHi : Instr → Bool
  | .mult .. | .div .. | .divu .. | .mthi _ => true
  | _ => false

/-- The writers of `LO` (R23). -/
def Instr.writesLo : Instr → Bool
  | .mult .. | .div .. | .divu .. | .mtlo _ => true
  | _ => false

/-- The handlers that set `PC` and `nPC` themselves (R25, R93). -/
def Instr.isControl : Instr → Bool
  | .beq .. | .bne .. | .j _ | .jal _ | .jr _ => true
  | _ => false

/-- Every word that agrees with `value` on `mask` decodes to the instruction that `build` makes of its fields (R69's
mask and match; R70). -/
def Selects (mask value : Word) (build : InstructionView → Instr) : Prop :=
  ∀ w : Word, w &&& mask = value → decode w = .instr (build (instructionView w))

namespace Machine

/-! ### The engine's states -/

/-- *idle*: no program bound (R30). -/
def State.Idle (s : State) : Prop := s.prog = none

/-- *loaded*: a program bound, no stop, the registers at their reset values (R30). -/
def State.Loaded (s : State) : Prop := s.prog ≠ none ∧ s = s.hostReset

/-- *halted*: a program bound, no stop, the fetch index outside `[0, N)` (R30). -/
def State.Halted (s : State) : Prop :=
  ∃ p, s.prog = some p ∧ s.stop = none ∧ ¬ (0 ≤ s.index ∧ s.index < p.length)

/-- A run from this state never records a fault or a refusal. -/
def State.SafeRun (s : State) : Prop := ∀ n, (s.stepProgram n).stop = none

/-- A run from this state ends normally (R102). -/
def State.EndsNormally (s : State) : Prop := ∃ n, (s.stepProgram n).Halted

/-! ### Frames -/

/-- What no completed step changes: the binding, every word of the store, the stop record, the floating-point slots. -/
structure SameEngine (s t : State) : Prop where
  prog : t.prog = s.prog
  word : ∀ i, t.wordAt i = s.wordAt i
  stop : t.stop = s.stop
  fpr  : t.fpr = s.fpr
  fcsr : t.fcsr = s.fcsr

/-- Every general register is unchanged. -/
def SameGprs (s t : State) : Prop := ∀ q, t.readGpr q = s.readGpr q

/-- Register `r` holds `v` and every other general register is unchanged. -/
def GprBecomes (r : RegIdx) (v : Word) (s t : State) : Prop :=
  t.readGpr r = v ∧ ∀ q, q ≠ r → t.readGpr q = s.readGpr q

/-- `HI` and `LO` are unchanged. -/
def SameHiLo (s t : State) : Prop := t.hi = s.hi ∧ t.lo = s.lo

/-- `PC` and `nPC` move as the default advance moves them (R92). -/
def Advances (s t : State) : Prop := t.pc = s.npc ∧ t.npc = s.npc + 4#32

/-- `PC` takes the old `nPC`, and `nPC` the target (R93). -/
def Redirects (target : Word) (s t : State) : Prop := t.pc = s.npc ∧ t.npc = target

/-- One general register written, then the default advance; nothing else changes. -/
def WritesOnlyGpr (r : RegIdx) (v : Word) (s t : State) : Prop :=
  GprBecomes r v s t ∧ SameHiLo s t ∧ Advances s t ∧ SameEngine s t

/-- `HI` and `LO` take these values, then the default advance; nothing else changes. -/
def WritesOnlyHiLo (hi lo : Word) (s t : State) : Prop :=
  t.hi = hi ∧ t.lo = lo ∧ SameGprs s t ∧ Advances s t ∧ SameEngine s t

/-- `PC` takes the old `nPC` and `nPC` the target; nothing else changes. -/
def JumpsOnly (target : Word) (s t : State) : Prop :=
  Redirects target s t ∧ SameGprs s t ∧ SameHiLo s t ∧ SameEngine s t

/-- Only the stop record is written (R184, R186). -/
structure StopsWith (why : Stop) (s t : State) : Prop where
  stop  : t.stop = some why
  gprs  : SameGprs s t
  hiLo  : SameHiLo s t
  pc    : t.pc = s.pc
  npc   : t.npc = s.npc
  prog  : t.prog = s.prog
  word  : ∀ i, t.wordAt i = s.wordAt i
  fpr   : t.fpr = s.fpr
  fcsr  : t.fcsr = s.fcsr

/-- The register columns of R33. -/
structure RegistersReset (t : State) : Prop where
  gprs : ∀ q, t.readGpr q = 0#32
  hi   : t.hi = 0#32
  lo   : t.lo = 0#32
  pc   : t.pc = 4#32
  npc  : t.npc = 4#32
  fpr  : t.fpr = Vector.replicate 32 0#32
  fcsr : t.fcsr = 0#32
  stop : t.stop = none

/-! ### The invariant -/

/-- The word that a recorded stop points at is one that can raise it (R182 to R184, R186). -/
def Stop.RaisedBy (why : Stop) (w : Word) : Prop :=
  match why with
  | .fault .divideByZero => ∃ rs rt, decode w = .instr (.div rs rt) ∨ decode w = .instr (.divu rs rt)
  | .fault .divideOverflow => ∃ rs rt, decode w = .instr (.div rs rt)
  | .refuse k => dispatchKey w = k ∧ k ∈ unsettledKeys

/-- What holds of the block in every state its host can bring about. -/
structure State.Inv (s : State) : Prop where
  /-- A bound Program is one the block accepts (R7, R203). -/
  store : s.prog.wf = true
  /-- `PC` holds 4 or a former in-bounds `nPC` (R155). -/
  pcRange : s.pc = 4#32 ∨ ∃ p, s.prog = some p ∧ 4 ≤ s.pc.toNat ∧ s.pc.toNat ≤ 4 * p.length + 3
  /-- A recorded stop is precise: `nPC` still names the word that raised it (R184, R186). -/
  stopNames : ∀ why, s.stop = some why → ∃ w, s.wordAt s.index = some w ∧ why.RaisedBy w
  /-- The floating-point slots hold zero (R27, R33). -/
  fpZero : s.fpr = Vector.replicate 32 0#32 ∧ s.fcsr = 0#32

end Machine

end Sys2Proof
end

