-- ==== Sys2Proof/Certificates/Slice0/Obligations.lean ====
section
/-! DEFINITION. The statements for the provers, each with the rule of spec/ it formalises. -/

open Sys2Proof Sys2Proof.Machine

/-- R110: `add` writes the sum modulo `2^32` and nothing else but the pair, and never traps. -/
def Obligations.AddWritesWrappedSum : Prop :=
  Selects 0xFC00003F#32 0x00000020#32 (fun v => .add v.rd v.rs v.rt) ∧
  ∀ (rd rs rt : RegIdx) (s : State), ∃ t, exec (.add rd rs rt) s = .next t ∧
    WritesOnlyGpr rd (s.readGpr rs + s.readGpr rt) s t

/-- R111: `addu` writes the sum modulo `2^32` and nothing else but the pair, and never traps. -/
def Obligations.AdduWritesWrappedSum : Prop :=
  Selects 0xFC00003F#32 0x00000021#32 (fun v => .addu v.rd v.rs v.rt) ∧
  ∀ (rd rs rt : RegIdx) (s : State), ∃ t, exec (.addu rd rs rt) s = .next t ∧
    WritesOnlyGpr rd (s.readGpr rs + s.readGpr rt) s t

/-- R112: `sub` writes the difference modulo `2^32` and nothing else but the pair, and never traps. -/
def Obligations.SubWritesWrappedDifference : Prop :=
  Selects 0xFC00003F#32 0x00000022#32 (fun v => .sub v.rd v.rs v.rt) ∧
  ∀ (rd rs rt : RegIdx) (s : State), ∃ t, exec (.sub rd rs rt) s = .next t ∧
    WritesOnlyGpr rd (s.readGpr rs - s.readGpr rt) s t

/-- R113: `subu` writes the difference modulo `2^32` and nothing else but the pair, and never traps. -/
def Obligations.SubuWritesWrappedDifference : Prop :=
  Selects 0xFC00003F#32 0x00000023#32 (fun v => .subu v.rd v.rs v.rt) ∧
  ∀ (rd rs rt : RegIdx) (s : State), ∃ t, exec (.subu rd rs rt) s = .next t ∧
    WritesOnlyGpr rd (s.readGpr rs - s.readGpr rt) s t

/-- R114: `addi` adds the signed immediate modulo `2^32` and never traps. -/
def Obligations.AddiWritesWrappedSum : Prop :=
  Selects 0xFC000000#32 0x20000000#32 (fun v => .addi v.rt v.rs v.imm) ∧
  ∀ (rt rs : RegIdx) (imm : BitVec 16) (s : State), ∃ t, exec (.addi rt rs imm) s = .next t ∧
    WritesOnlyGpr rt (BitVec.ofInt 32 ((s.readGpr rs).toInt + imm.toInt)) s t

/-- R115: `addiu` adds the signed immediate modulo `2^32` and never traps. -/
def Obligations.AddiuWritesWrappedSum : Prop :=
  Selects 0xFC000000#32 0x24000000#32 (fun v => .addiu v.rt v.rs v.imm) ∧
  ∀ (rt rs : RegIdx) (imm : BitVec 16) (s : State), ∃ t, exec (.addiu rt rs imm) s = .next t ∧
    WritesOnlyGpr rt (BitVec.ofInt 32 ((s.readGpr rs).toInt + imm.toInt)) s t

/-- R130 with `MULT_MODE = legacy32` (R7): the truncated product and its sign fill, equal to the true product when that fits. -/
def Obligations.MultWritesSignFilledProduct : Prop :=
  Selects 0xFC00003F#32 0x00000018#32 (fun v => .mult v.rs v.rt) ∧
  ∀ (rs rt : RegIdx) (s : State),
    let a := s.readGpr rs
    let b := s.readGpr rt
    ∃ t, exec (.mult rs rt) s = .next t ∧
      WritesOnlyHiLo (if (a * b).getLsbD 31 then 0xFFFFFFFF#32 else 0x00000000#32) (a * b) s t ∧
      (-(2 ^ 31 : Int) ≤ a.toInt * b.toInt → a.toInt * b.toInt < 2 ^ 31 →
        t.hi ++ t.lo = BitVec.ofInt 64 (a.toInt * b.toInt))

/-- R131: the quotient truncated toward zero and its remainder, or one of the two faults with nothing written. -/
def Obligations.DivWritesTruncatedQuotientOrFaults : Prop :=
  Selects 0xFC00003F#32 0x0000001A#32 (fun v => .div v.rs v.rt) ∧
  ∀ (rs rt : RegIdx) (s : State),
    let a := s.readGpr rs
    let b := s.readGpr rt
    (b = 0x00000000#32 → exec (.div rs rt) s = .fault .divideByZero ∧
      StopsWith (.fault .divideByZero) s (s.afterOutcome (exec (.div rs rt) s))) ∧
    (a = 0x80000000#32 → b = 0xFFFFFFFF#32 → exec (.div rs rt) s = .fault .divideOverflow ∧
      StopsWith (.fault .divideOverflow) s (s.afterOutcome (exec (.div rs rt) s))) ∧
    (b ≠ 0x00000000#32 → ¬ (a = 0x80000000#32 ∧ b = 0xFFFFFFFF#32) →
      ∃ t, exec (.div rs rt) s = .next t ∧
        WritesOnlyHiLo (BitVec.ofInt 32 (a.toInt - b.toInt * a.toInt.tdiv b.toInt))
          (BitVec.ofInt 32 (a.toInt.tdiv b.toInt)) s t ∧
        a.toInt = b.toInt * t.lo.toInt + t.hi.toInt ∧
        t.hi.toInt.natAbs < b.toInt.natAbs ∧
        (t.hi.toInt = 0 ∨ (t.hi.toInt < 0 ↔ a.toInt < 0)))

/-- R132: the unsigned quotient and remainder, or the fault with nothing written. -/
def Obligations.DivuWritesQuotientOrFaults : Prop :=
  Selects 0xFC00003F#32 0x0000001B#32 (fun v => .divu v.rs v.rt) ∧
  ∀ (rs rt : RegIdx) (s : State),
    let a := s.readGpr rs
    let b := s.readGpr rt
    (b = 0x00000000#32 → exec (.divu rs rt) s = .fault .divideByZero ∧
      StopsWith (.fault .divideByZero) s (s.afterOutcome (exec (.divu rs rt) s))) ∧
    (b ≠ 0x00000000#32 →
      ∃ t, exec (.divu rs rt) s = .next t ∧ WritesOnlyHiLo t.hi t.lo s t ∧
        t.lo.toNat = a.toNat / b.toNat ∧ t.hi.toNat = a.toNat - b.toNat * (a.toNat / b.toNat) ∧
        t.hi.toNat < b.toNat)

/-- R133: `mfhi` copies `HI` to `rd`, which stays as it was. -/
def Obligations.MfhiCopiesHi : Prop :=
  Selects 0xFC00003F#32 0x00000010#32 (fun v => .mfhi v.rd) ∧
  ∀ (rd : RegIdx) (s : State), ∃ t, exec (.mfhi rd) s = .next t ∧ WritesOnlyGpr rd s.hi s t

/-- R134: `mthi` copies `rs` to `HI`; the other accumulator and every general register stay. -/
def Obligations.MthiWritesHi : Prop :=
  Selects 0xFC00003F#32 0x00000011#32 (fun v => .mthi v.rs) ∧
  ∀ (rs : RegIdx) (s : State), ∃ t, exec (.mthi rs) s = .next t ∧ WritesOnlyHiLo (s.readGpr rs) s.lo s t

/-- R135: `mflo` copies `LO` to `rd`, which stays as it was. -/
def Obligations.MfloCopiesLo : Prop :=
  Selects 0xFC00003F#32 0x00000012#32 (fun v => .mflo v.rd) ∧
  ∀ (rd : RegIdx) (s : State), ∃ t, exec (.mflo rd) s = .next t ∧ WritesOnlyGpr rd s.lo s t

/-- R136: `mtlo` copies `rs` to `LO`; the other accumulator and every general register stay. -/
def Obligations.MtloWritesLo : Prop :=
  Selects 0xFC00003F#32 0x00000013#32 (fun v => .mtlo v.rs) ∧
  ∀ (rs : RegIdx) (s : State), ∃ t, exec (.mtlo rs) s = .next t ∧ WritesOnlyHiLo s.hi (s.readGpr rs) s t

/-- R150: the taken and the not-taken branch. -/
def Obligations.BeqBranchesWhenEqual : Prop :=
  Selects 0xFC000000#32 0x10000000#32 (fun v => .beq v.rs v.rt v.imm) ∧
  ∀ (rs rt : RegIdx) (imm : BitVec 16) (s : State),
    (s.readGpr rs = s.readGpr rt → ∃ t, exec (.beq rs rt imm) s = .next t ∧
      JumpsOnly (s.npc + 4#32 + BitVec.ofInt 32 (4 * imm.toInt)) s t) ∧
    (s.readGpr rs ≠ s.readGpr rt → ∃ t, exec (.beq rs rt imm) s = .next t ∧
      JumpsOnly (s.npc + 4#32) s t)

/-- R151: the taken and the not-taken branch. -/
def Obligations.BneBranchesWhenNotEqual : Prop :=
  Selects 0xFC000000#32 0x14000000#32 (fun v => .bne v.rs v.rt v.imm) ∧
  ∀ (rs rt : RegIdx) (imm : BitVec 16) (s : State),
    (s.readGpr rs ≠ s.readGpr rt → ∃ t, exec (.bne rs rt imm) s = .next t ∧
      JumpsOnly (s.npc + 4#32 + BitVec.ofInt 32 (4 * imm.toInt)) s t) ∧
    (s.readGpr rs = s.readGpr rt → ∃ t, exec (.bne rs rt imm) s = .next t ∧
      JumpsOnly (s.npc + 4#32) s t)

/-- R152: the region of the pre-jump `PC`, the field shifted once, the bias after the OR. -/
def Obligations.JumpSetsRegionTarget : Prop :=
  Selects 0xFC000000#32 0x08000000#32 (fun v => .j v.address) ∧
  ∀ (address : BitVec 26) (s : State), ∃ t, exec (.j address) s = .next t ∧
    JumpsOnly (((s.pc &&& 0xF0000000#32) ||| (address.setWidth 32 <<< 2)) + 4#32) s t

/-- R153: the link is the pre-jump `PC + 4`; the target is that of `j`. -/
def Obligations.JalLinksOldPcPlusFourAndJumps : Prop :=
  Selects 0xFC000000#32 0x0C000000#32 (fun v => .jal v.address) ∧
  ∀ (address : BitVec 26) (s : State), ∃ t, exec (.jal address) s = .next t ∧
    GprBecomes 31 (s.pc + 4#32) s t ∧ SameHiLo s t ∧
    Redirects (((s.pc &&& 0xF0000000#32) ||| (address.setWidth 32 <<< 2)) + 4#32) s t ∧ SameEngine s t

/-- R154: `PC <- nPC_old; nPC <- g + 4`. -/
def Obligations.JrJumpsToPlainAddress : Prop :=
  Selects 0xFC00003F#32 0x00000008#32 (fun v => .jr v.rs) ∧
  ∀ (rs : RegIdx) (s : State), ∃ t, exec (.jr rs) s = .next t ∧ JumpsOnly (s.readGpr rs + 4#32) s t

/-- R97 and R186: the six words the spec refuses. Their keys and encodings are those of R73, from general knowledge (log entry 8, PRESUMED). -/
def Obligations.UnsettledWordsAreRefused : Prop :=
  (Selects 0xFC00003F#32 0x00000024#32 (fun _ => .and) ∧ Selects 0xFC00003F#32 0x00000025#32 (fun _ => .or) ∧
    Selects 0xFC00003F#32 0x00000026#32 (fun _ => .xor) ∧ Selects 0xFC00003F#32 0x00000027#32 (fun _ => .nor) ∧
    Selects 0xFC000000#32 0x30000000#32 (fun _ => .andi) ∧ Selects 0xFC000000#32 0x34000000#32 (fun _ => .ori)) ∧
  (∀ s : State, exec .and s = .refused (.unsettledKey 0x240#10) ∧ exec .or s = .refused (.unsettledKey 0x250#10) ∧
    exec .xor s = .refused (.unsettledKey 0x260#10) ∧ exec .nor s = .refused (.unsettledKey 0x270#10) ∧
    exec .andi s = .refused (.unsettledKey 0x00C#10) ∧ exec .ori s = .refused (.unsettledKey 0x00D#10)) ∧
  ∀ (s : State) (w : Word), s.fetch = .ok w →
    dispatchKey w ∈ [0x240#10, 0x250#10, 0x260#10, 0x270#10, 0x00C#10, 0x00D#10] →
    step s = .refused (.unsettledKey (dispatchKey w)) ∧ StopsWith (.refuse (dispatchKey w)) s s.engineStep ∧
      s.engineStep.enabled = false

/-- Decode and encode agree, for every instruction and every operand (R61, R62, R68, R69, R73). The zeros in unread fields are the model's choice (log entry 13), and the encodings of the six unsettled instructions are PRESUMED (log entry 8). -/
def Obligations.EncodedInstructionDecodesToItself : Prop :=
  ∀ i : Instr, decode (encode i) = .instr i

/-- R69's mask and match extended to the operand fields, with R70: fields outside them are not checked. The zeros in unread fields are the model's choice (log entry 13), and the encodings of the six unsettled instructions are PRESUMED (log entry 8). -/
def Obligations.WordDecodesByItsReadFieldsAlone : Prop :=
  ∀ (w : Word) (i : Instr), decode w = .instr i ↔ w &&& fieldMask i = encode i

/-- R72: the unmapped keys are the keys of neither list. The six unsettled keys are PRESUMED (log entry 8). -/
def Obligations.UnmappedKeysAreExactlyTheOthers : Prop :=
  ∀ (w : Word) (k : Key), decode w = .unmapped k ↔ k = dispatchKey w ∧
    k ∉ [0x200#10, 0x210#10, 0x220#10, 0x230#10, 0x180#10, 0x1A0#10, 0x1B0#10, 0x080#10, 0x100#10, 0x110#10,
      0x120#10, 0x130#10, 0x008#10, 0x009#10, 0x004#10, 0x005#10, 0x002#10, 0x003#10] ∧
    k ∉ [0x240#10, 0x250#10, 0x260#10, 0x270#10, 0x00C#10, 0x00D#10]

/-- R95: the fail-soft no-op. -/
def Obligations.UnmappedWordOnlyAdvances : Prop :=
  ∀ (s : State) (w : Word), s.fetch = .ok w →
    dispatchKey w ∉ [0x200#10, 0x210#10, 0x220#10, 0x230#10, 0x180#10, 0x1A0#10, 0x1B0#10, 0x080#10, 0x100#10,
      0x110#10, 0x120#10, 0x130#10, 0x008#10, 0x009#10, 0x004#10, 0x005#10, 0x002#10, 0x003#10] →
    dispatchKey w ∉ [0x240#10, 0x250#10, 0x260#10, 0x270#10, 0x00C#10, 0x00D#10] →
    ∃ t, step s = .next t ∧ JumpsOnly (s.npc + 4#32) s t

/-- R71: the collision changes no behaviour. -/
def Obligations.CollidingKeysAreUnmapped : Prop :=
  (∀ w : Word, ((instructionView w).opcode = 0#6 → (instructionView w).funct = 1#6 → dispatchKey w = 16#10) ∧
    ((instructionView w).opcode = 0#6 → (instructionView w).funct = 2#6 → dispatchKey w = 32#10) ∧
    ((instructionView w).opcode = 0#6 → (instructionView w).funct = 3#6 → dispatchKey w = 48#10) ∧
    ((instructionView w).opcode = 0x10#6 → dispatchKey w = 16#10) ∧
    ((instructionView w).opcode = 0x20#6 → dispatchKey w = 32#10) ∧
    ((instructionView w).opcode = 0x30#6 → dispatchKey w = 48#10)) ∧
  ∀ w : Word, dispatchKey w = 16#10 ∨ dispatchKey w = 32#10 ∨ dispatchKey w = 48#10 →
    decode w = .unmapped (dispatchKey w) ∧
    ∀ s : State, s.fetch = .ok w → ∃ t, step s = .next t ∧ JumpsOnly (s.npc + 4#32) s t

/-- R68, as numbers. -/
def Obligations.DispatchKeyFromOpcodeAndFunct : Prop :=
  ∀ w : Word, (dispatchKey w).toNat =
      (if w.toNat / 2 ^ 26 = 0 then w.toNat % 2 ^ 6 * 2 ^ 4 else w.toNat / 2 ^ 26) ∧
    (dispatchKey w).toNat ≤ 1008

/-- R61, as numbers. -/
def Obligations.FieldsAreTheBitsOfTheWord : Prop :=
  ∀ w : Word, (instructionView w).opcode.toNat = w.toNat / 2 ^ 26 ∧
    (instructionView w).rs.val = w.toNat / 2 ^ 21 % 2 ^ 5 ∧ (instructionView w).rt.val = w.toNat / 2 ^ 16 % 2 ^ 5 ∧
    (instructionView w).rd.val = w.toNat / 2 ^ 11 % 2 ^ 5 ∧
    (instructionView w).shamt.toNat = w.toNat / 2 ^ 6 % 2 ^ 5 ∧
    (instructionView w).funct.toNat = w.toNat % 2 ^ 6 ∧ (instructionView w).imm.toNat = w.toNat % 2 ^ 16 ∧
    (instructionView w).address.toNat = w.toNat % 2 ^ 26

/-- R64 to R66, as numbers. -/
def Obligations.OperandFormsAsNumbers : Prop :=
  (∀ imm : BitVec 16, (sext16 imm).toInt = imm.toInt ∧ (zext16 imm).toNat = imm.toNat ∧
    branchOffset imm = BitVec.ofInt 32 (4 * imm.toInt)) ∧
  ∀ address : BitVec 26, (jumpField address).toNat = 4 * address.toNat ∧ (jumpField address).toNat < 2 ^ 28

/-- E1, E9 and the vectors of 95_test_vectors.md. The encoding of `and` is PRESUMED (log entry 8). -/
def Obligations.SpecWordsDecodeAsWritten : Prop :=
  decode 0x2084000C#32 = .instr (.addi 4 4 12#16) ∧ decode 0x00A43020#32 = .instr (.add 6 5 4) ∧
  decode 0x0085001A#32 = .instr (.div 4 5) ∧ decode 0x00003810#32 = .instr (.mfhi 7) ∧
  decode 0x1420FFFD#32 = .instr (.bne 1 0 0xFFFD#16) ∧ decode 0x0C000005#32 = .instr (.jal 5#26) ∧
  decode 0x03E00008#32 = .instr (.jr 31) ∧ decode 0x00A43024#32 = .instr .and ∧
  decode 0x8C020000#32 = .unmapped 0x023#10

/-- R91: fetch, then the handler of the word, or the default advance. -/
def Obligations.StepRunsTheDecodedInstruction : Prop :=
  ∀ (s : State) (p : Program) (f : Nat) (w : Word), s.prog = some p → s.stop = none →
    (s.npc.toNat / 4 : Int) - 1 = f → p[f]? = some w →
    (∀ i, decode w = .instr i → step s = exec i s ∧ s.engineStep = s.afterOutcome (exec i s)) ∧
    (∀ k, decode w = .unmapped k → ∃ t, step s = .next t ∧ JumpsOnly (s.npc + 4#32) s t ∧ s.engineStep = t)

/-- R90. -/
def Obligations.StepIsEnabledExactlyInBounds : Prop :=
  ∀ s : State,
    (s.enabled = true ↔ ∃ p, s.prog = some p ∧ s.stop = none ∧ 0 ≤ (s.npc.toNat / 4 : Int) - 1 ∧
      (s.npc.toNat / 4 : Int) - 1 < p.length) ∧
    (s.prog = none → s.enabled = false) ∧
    (s.enabled = false → (∀ t, step s ≠ .next t) ∧ s.engineStep = s ∧ (∀ n, s.stepProgram n = s) ∧
      ∀ fuel, s.runProgram fuel = some s)

/-- R181: the outcomes of a step, and the states without one. -/
def Obligations.EnabledStepEndsInOneOfThreeWays : Prop :=
  (∀ s : State, s.enabled = true →
    (∃ t, step s = .next t ∧ s.engineStep = t ∧ t.stop = none) ∨
    (∃ r, (r = .divideByZero ∨ r = .divideOverflow) ∧ step s = .fault r ∧ StopsWith (.fault r) s s.engineStep) ∨
    (∃ w, s.fetch = .ok w ∧ dispatchKey w ∈ unsettledKeys ∧ step s = .refused (.unsettledKey (dispatchKey w)) ∧
      StopsWith (.refuse (dispatchKey w)) s s.engineStep)) ∧
  ∀ s : State, s.enabled = false →
    s.Idle ∨ s.Halted ∨ (∃ r, s.stop = some (.fault r)) ∨ ∃ k, s.stop = some (.refuse k)

/-- R182 and R183: only these divisions fault. -/
def Obligations.OnlyDivisionFaults : Prop :=
  ∀ s : State,
    (step s = .fault .divideByZero ↔ ∃ w rs rt, s.fetch = .ok w ∧
      (decode w = .instr (.div rs rt) ∨ decode w = .instr (.divu rs rt)) ∧ s.readGpr rt = 0x00000000#32) ∧
    (step s = .fault .divideOverflow ↔ ∃ w rs rt, s.fetch = .ok w ∧ decode w = .instr (.div rs rt) ∧
      s.readGpr rs = 0x80000000#32 ∧ s.readGpr rt = 0xFFFFFFFF#32) ∧
    ∀ r, step s = .fault r → s.engineStep.npc = s.npc ∧ s.engineStep.index = s.index ∧
      s.engineStep.wordAt s.index = s.wordAt s.index

/-- R184: fault entry. -/
def Obligations.FaultEntryIsPrecise : Prop :=
  ∀ (s : State) (r : Fault), step s = .fault r →
    StopsWith (.fault r) s s.engineStep ∧ s.engineStep.enabled = false ∧
      (∀ n, s.stepProgram (n + 1) = s.engineStep) ∧ ∀ fuel, s.runProgram (fuel + 1) = some s.engineStep

/-- R185, for a recorded refusal too (R186). -/
def Obligations.RecordedStopStaysUntilResetOrLoad : Prop :=
  ∀ (s : State) (why : Stop), s.stop = some why →
    (s.call .reset).2.stop = none ∧
    (∀ seq : Program, seq.length ≤ 2 ^ 29 - 1 → (s.call (.loadProgram seq)).2.stop = none) ∧
    (∀ c : HostCall, c ≠ .reset → (∀ seq, c = .loadProgram seq → 2 ^ 29 - 1 < seq.length) →
      (s.call c).2.stop = some why) ∧
    (∀ (r : RegIdx) (v : Word), (s.call (.setGPR r.val v)).2.readGpr r = v) ∧
    (∀ r : RegIdx, (s.call (.gprValue r.val)).1 = .value (s.readGpr r).toInt) ∧
    (s.call .hi).1 = .value s.hi.toInt ∧ (s.call .lo).1 = .value s.lo.toInt

/-- R93. -/
def Obligations.ExactlyOnePcUpdatePerCompletedStep : Prop :=
  ∀ (s : State) (w : Word), s.fetch = .ok w →
    (∀ t, step s = .next t → t.pc = s.npc ∧
      ((∀ i, decode w = .instr i → i.isControl = false) → t.npc = s.npc + 4#32) ∧
      (∀ rs rt imm, decode w = .instr (.beq rs rt imm) → s.readGpr rs ≠ s.readGpr rt → t.npc = s.npc + 4#32) ∧
      (∀ rs rt imm, decode w = .instr (.bne rs rt imm) → s.readGpr rs = s.readGpr rt → t.npc = s.npc + 4#32)) ∧
    ((∀ t, step s ≠ .next t) → s.engineStep.pc = s.pc ∧ s.engineStep.npc = s.npc)

/-- R27, R32, R50: what no step writes, and that only a step that does not complete writes the stop record (R184, R186). -/
def Obligations.StepKeepsProgramAndSlots : Prop :=
  ∀ s : State, (∀ t, step s = .next t → SameEngine s t) ∧
    s.engineStep.prog = s.prog ∧ (∀ i, s.engineStep.wordAt i = s.wordAt i) ∧ s.engineStep.fpr = s.fpr ∧
    s.engineStep.fcsr = s.fcsr

/-- The writers of R22. -/
def Obligations.OnlyNamedGprIsWritten : Prop :=
  (∀ (i : Instr) (s t : State) (q : RegIdx), exec i s = .next t → q ∉ i.gprWrites → t.readGpr q = s.readGpr q) ∧
  ∀ (s t : State) (w : Word) (k : Key), s.fetch = .ok w → decode w = .unmapped k → step s = .next t → SameGprs s t

/-- The readers of R22: the rest of the register file cannot be learned. -/
def Obligations.OnlyNamedGprsAreRead : Prop :=
  ∀ (i : Instr) (s : State) (r : RegIdx) (v : Word), r ∉ i.gprReads →
    (∀ t, exec i s = .next t → ∃ t', exec i (s.writeGpr r v) = .next t' ∧
      t'.writeGpr r 0#32 = t.writeGpr r 0#32 ∧ (r ∈ i.gprWrites → t' = t)) ∧
    (∀ x, exec i s = .fault x → exec i (s.writeGpr r v) = .fault x) ∧
    (∀ x, exec i s = .refused x → exec i (s.writeGpr r v) = .refused x)

/-- R23: the writers and the readers of the accumulators. -/
def Obligations.HiLoWrittenAndReadOnlyAsNamed : Prop :=
  (∀ (i : Instr) (s t : State), exec i s = .next t →
    (i.writesHi = false → t.hi = s.hi) ∧ (i.writesLo = false → t.lo = s.lo)) ∧
  (∀ (i : Instr) (s : State) (v : Word), (∀ rd, i ≠ .mfhi rd) →
    (∀ t, exec i s = .next t → ∃ t', exec i (s.writeHi v) = .next t' ∧ t'.writeHi 0#32 = t.writeHi 0#32) ∧
    (∀ x, exec i s = .fault x → exec i (s.writeHi v) = .fault x) ∧
    (∀ x, exec i s = .refused x → exec i (s.writeHi v) = .refused x)) ∧
  (∀ (i : Instr) (s : State) (v : Word), (∀ rd, i ≠ .mflo rd) →
    (∀ t, exec i s = .next t → ∃ t', exec i (s.writeLo v) = .next t' ∧ t'.writeLo 0#32 = t.writeLo 0#32) ∧
    (∀ x, exec i s = .fault x → exec i (s.writeLo v) = .fault x) ∧
    (∀ x, exec i s = .refused x → exec i (s.writeLo v) = .refused x)) ∧
  (∀ (s : State) (w : Word) (k : Key) (hi lo : Word), s.fetch = .ok w → decode w = .unmapped k →
    ∃ t, step s = .next t ∧ SameHiLo s t ∧ step ((s.writeHi hi).writeLo lo) = .next ((t.writeHi hi).writeLo lo)) ∧
  (∀ (s : State) (index : Int) (v : Word), SameHiLo s (s.call (.setGPR index v)).2 ∧
    SameHiLo s (s.call (.gprValue index)).2 ∧ SameHiLo s (s.call .hi).2 ∧ SameHiLo s (s.call .lo).2) ∧
  ∀ s : State, (s.call .hi).1 = .value s.hi.toInt ∧ (s.call .lo).1 = .value s.lo.toInt

/-- R116. -/
def Obligations.SignedAndUnsignedPairsAgree : Prop :=
  (∀ (rd rs rt : RegIdx) (s : State), exec (.addu rd rs rt) s = exec (.add rd rs rt) s ∧
    exec (.subu rd rs rt) s = exec (.sub rd rs rt) s) ∧
  (∀ (rt rs : RegIdx) (imm : BitVec 16) (s : State), exec (.addiu rt rs imm) s = exec (.addi rt rs imm) s) ∧
  ∀ (i : Instr) (s : State), (∃ a b c, i = .add a b c ∨ i = .addu a b c ∨ i = .sub a b c ∨ i = .subu a b c) ∨
      (∃ a b imm, i = .addi a b imm ∨ i = .addiu a b imm) →
    ∃ t r, exec i s = .next t ∧ SameHiLo s t ∧ i.gprWrites = [r] ∧ (∀ q, q ≠ r → t.readGpr q = s.readGpr q) ∧
      ∀ hi lo pc, ∃ t', exec i { s with hi := hi, lo := lo, pc := pc } = .next t' ∧
        (∀ q, t'.readGpr q = t.readGpr q) ∧ t'.pc = t.pc ∧ t'.npc = t.npc

/-- R137: no accumulator write is ever in flight. -/
def Obligations.HiLoResultsAreSeenByTheNextInstruction : Prop :=
  ∀ (s : State) (rs rt rd : RegIdx),
    (∃ t u, exec (.mthi rs) s = .next t ∧ exec (.mfhi rd) t = .next u ∧ u.readGpr rd = s.readGpr rs) ∧
    (∃ t u, exec (.mtlo rs) s = .next t ∧ exec (.mflo rd) t = .next u ∧ u.readGpr rd = s.readGpr rs) ∧
    (∃ t u, exec (.mult rs rt) s = .next t ∧ exec (.mflo rd) t = .next u ∧
      u.readGpr rd = s.readGpr rs * s.readGpr rt) ∧
    (∃ t u, exec (.mult rs rt) s = .next t ∧ exec (.mfhi rd) t = .next u ∧
      u.readGpr rd = if (s.readGpr rs * s.readGpr rt).getLsbD 31 then 0xFFFFFFFF#32 else 0x00000000#32) ∧
    (∀ i t, i = .div rs rt ∨ i = .divu rs rt → exec i s = .next t →
      ∃ u u', exec (.mfhi rd) t = .next u ∧ u.readGpr rd = t.hi ∧ exec (.mflo rd) t = .next u' ∧
        u'.readGpr rd = t.lo)

/-- R42 and R43. -/
def Obligations.FetchIndexOfNpc : Prop :=
  (∀ (v : Word) (i : Int), fetchIndex v = i ↔ 4 * (i + 1) ≤ (v.toNat : Int) ∧ (v.toNat : Int) ≤ 4 * (i + 1) + 3) ∧
  (∀ s : State, ({ s with npc := s.npc &&& 0xFFFFFFFC#32 } : State).fetch = s.fetch) ∧
  (∀ s : State, s.npc.toNat ≤ 3 → fetchIndex s.npc = -1 ∧ s.enabled = false) ∧
  fetchIndex 0x00000004#32 = 0 ∧
  ∀ (s : State) (r : Fault), step s = .fault r → ∃ w i, s.fetch = .ok w ∧ decode w = .instr i ∧ exec i s = .fault r

/-- R41: under the bound on N the unstated signedness cannot matter (D11). -/
def Obligations.SignedAndUnsignedFetchIndexAgree : Prop :=
  ∀ (v : Word) (n : Nat), n ≤ 2 ^ 29 - 1 →
    ((0 ≤ v.toInt.tdiv 4 - 1 ∧ v.toInt.tdiv 4 - 1 < n) ↔ (0 ≤ fetchIndex v ∧ fetchIndex v < n)) ∧
    (0 ≤ fetchIndex v → fetchIndex v < n → v.toInt.tdiv 4 - 1 = fetchIndex v)

/-- The table of R155. For a taken branch to a negative index the spec's row names the index before the bounds check; `nPC` then wraps, so the statement says what the check answers (log entry 6). -/
def Obligations.NextWordExecuted : Prop :=
  ∀ (s : State) (p : Program) (f : Nat), s.prog = some p → p.length ≤ 2 ^ 29 - 1 → s.index = f → f < p.length →
    (∀ i t, i.isControl = false → exec i s = .next t → t.index = f + 1) ∧
    s.defaultAdvance.index = f + 1 ∧
    (∀ rs rt imm i t, (i = .beq rs rt imm ∧ s.readGpr rs ≠ s.readGpr rt) ∨
        (i = .bne rs rt imm ∧ s.readGpr rs = s.readGpr rt) → exec i s = .next t → t.index = f + 1) ∧
    (∀ rs rt imm i t, (i = .beq rs rt imm ∧ s.readGpr rs = s.readGpr rt) ∨
        (i = .bne rs rt imm ∧ s.readGpr rs ≠ s.readGpr rt) → exec i s = .next t →
      (0 ≤ (f : Int) + 1 + imm.toInt → t.index = f + 1 + imm.toInt) ∧
      ((f : Int) + 1 + imm.toInt < 0 → inBounds p.length t.npc = false)) ∧
    (∀ address i t, i = .j address ∨ i = .jal address → exec i s = .next t →
      t.index = if s.pc.toNat / 2 ^ 28 = 15 ∧ address = 0x3FFFFFF#26 then -1
        else (s.pc.toNat / 2 ^ 28 * 2 ^ 26 + address.toNat : Int)) ∧
    (∀ rs t, exec (.jr rs) s = .next t →
      t.index = if (s.readGpr rs).toNat ≤ 0xFFFFFFFB then ((s.readGpr rs).toNat / 4 : Int) else -1)

/-- R156: no delay-slot word executes. -/
def Obligations.NoDelaySlotWordExecutes : Prop :=
  ∀ (s t : State) (p : Program) (f g : Nat) (w w' : Word), s.prog = some p → p.length ≤ 2 ^ 29 - 1 →
    s.stop = none → s.index = f → p[f]? = some w → p[g]? = some w' → step s = .next t →
    (∃ rs rt imm, ((decode w = .instr (.beq rs rt imm) ∧ s.readGpr rs = s.readGpr rt) ∨
        (decode w = .instr (.bne rs rt imm) ∧ s.readGpr rs ≠ s.readGpr rt)) ∧ (g : Int) = f + 1 + imm.toInt) ∨
    (∃ address, (decode w = .instr (.j address) ∨ decode w = .instr (.jal address)) ∧
      g = s.pc.toNat / 2 ^ 28 * 2 ^ 26 + address.toNat) ∨
    (∃ rs, decode w = .instr (.jr rs) ∧ g = (s.readGpr rs).toNat / 4) →
    t.fetch = .ok w' ∧ t.pc = s.npc

/-- R157 and R212: the link depends on how the `jal` was reached. -/
def Obligations.JrAfterJalResumesByOldPc : Prop :=
  ∀ (s : State) (address : BitVec 26), s.pc.toNat ≤ 4 * (2 ^ 29 - 1) + 3 →
    ∃ t, exec (.jal address) s = .next t ∧ t.readGpr 31 = s.pc + 4#32 ∧
      ∀ u : State, u.readGpr 31 = t.readGpr 31 → ∃ v, exec (.jr 31) u = .next v ∧
        v.index = fetchIndex s.pc + 2 ∧ (s.npc = s.pc + 4#32 → v.index = s.index + 1) ∧
        (s.pc = 4#32 → v.index = 2)

/-- R155: `PC_old < 2^28` for every such Program. -/
def Obligations.ShortProgramsHaveRegionZero : Prop :=
  ∀ (s : State) (p : Program), s.Inv → s.prog = some p → p.length ≤ 2 ^ 26 - 1 →
    s.pc.toNat < 2 ^ 28 ∧ ∀ (address : BitVec 26) (i : Instr), i = .j address ∨ i = .jal address →
      ∃ t, exec i s = .next t ∧ t.index = address.toNat

/-- The table of R33. -/
def Obligations.ResetStateIsAsTabulated : Prop :=
  (RegistersReset State.reset ∧ State.reset.prog = none) ∧
  (∀ s : State, RegistersReset (s.call .reset).2 ∧ (s.call .reset).2.prog = s.prog) ∧
  ∀ (s : State) (seq : Program), seq.length ≤ 2 ^ 29 - 1 →
    RegistersReset (s.call (.loadProgram seq)).2 ∧ (s.call (.loadProgram seq)).2.prog = some seq

/-- R203. -/
def Obligations.LoadProgramBindsOrRejects : Prop :=
  ∀ (s : State) (seq : Program),
    (seq.length ≤ 2 ^ 29 - 1 → (s.call (.loadProgram seq)).1 = .returned ∧
      (s.call (.loadProgram seq)).2.prog = some seq ∧ RegistersReset (s.call (.loadProgram seq)).2 ∧
      (s.call (.loadProgram seq)).2.Loaded) ∧
    (2 ^ 29 - 1 < seq.length → s.call (.loadProgram seq) = (.rejected, s))

/-- R204 and R205. -/
def Obligations.AccessorsReadAndWriteByIndex : Prop :=
  ∀ (s : State) (index : Int) (v : Word),
    (∀ r : RegIdx, (r.val : Int) = index →
      (∃ t, s.call (.setGPR index v) = (.returned, t) ∧ GprBecomes r v s t ∧ SameHiLo s t ∧ t.pc = s.pc ∧
        t.npc = s.npc ∧ SameEngine s t) ∧
      s.call (.gprValue index) = (.value (s.readGpr r).toInt, s)) ∧
    (index < 0 ∨ 31 < index →
      s.call (.setGPR index v) = (.rejected, s) ∧ s.call (.gprValue index) = (.rejected, s)) ∧
    s.call .hi = (.value s.hi.toInt, s) ∧ s.call .lo = (.value s.lo.toInt, s)

/-- R99, the default `n = 1` included. -/
def Obligations.StepThenRunEndsWhereRunEnds : Prop :=
  (∀ s : State, s.call .stepProgram = (.returned, if s.enabled then s.engineStep else s)) ∧
  (∀ (s : State) (n : Nat), s.call (.stepProgram n) = (.returned, s.stepProgram n)) ∧
  (∀ (s : State), s.stepProgram 0 = s) ∧
  (∀ (s : State) (n : Nat), s.stepProgram (n + 1) = if s.enabled then s.engineStep.stepProgram n else s) ∧
  (∀ (s t : State) (k fuel : Nat), (s.stepProgram k).runProgram fuel = some t →
    s.runProgram (k + fuel) = some t) ∧
  ∀ (s t : State) (k fuel : Nat), s.runProgram fuel = some t → (s.stepProgram k).runProgram fuel = some t

/-- R207, over every host call that keeps the binding; a `runProgram` that has not returned is taken as log entry 5 says. -/
def Obligations.ResetReproducesAFreshRun : Prop :=
  ∀ (p : Program) (fresh : State) (cs : List HostCall) (fuel : Nat), State.loadProgram? p = some fresh →
    (∀ c ∈ cs, ∀ q, c ≠ .loadProgram q) →
    (State.calls cs fresh).hostReset.runProgram fuel = fresh.runProgram fuel

/-- R98 and R102. -/
def Obligations.RunEndsExactlyWhereNoStepIsEnabled : Prop :=
  (∀ (s t : State) (fuel : Nat), s.runProgram fuel = some t →
    t.enabled = false ∧ ∃ n, n ≤ fuel ∧ t = s.stepProgram n) ∧
  (∀ (s : State) (n : Nat), (s.stepProgram n).enabled = false → s.runProgram n = some (s.stepProgram n)) ∧
  (∀ (s : State), s.enabled = false → s.runProgram 0 = some s) ∧
  ∀ (s t : State) (fuel : Nat), s.Loaded → s.runProgram fuel = some t →
    (t.stop = none ↔ t.Halted) ∧
    (t.stop ≠ none ↔ (∃ r, t.stop = some (.fault r)) ∨ ∃ k, t.stop = some (.refuse k))

/-- R100 and R206: the host's only way to move the fetch index is reset or loadProgram. -/
def Obligations.HaltedStaysHaltedUntilResetOrLoad : Prop :=
  ∀ (s : State) (c : HostCall), s.Halted → c ≠ .reset → (∀ seq, c = .loadProgram seq → 2 ^ 29 - 1 < seq.length) →
    s.enabled = false ∧ (s.call c).2.Halted ∧ (s.call c).2.pc = s.pc ∧ (s.call c).2.npc = s.npc

/-- R214: `runProgram` need not return. -/
def Obligations.SelfBranchRunsForever : Prop :=
  ∀ s : State, s.fetch = .ok 0x1000FFFF#32 → ∀ fuel, s.runProgram fuel = none

/-- The invariant holds at reset (R33). -/
def Obligations.ConstructedBlockMeetsTheInvariant : Prop :=
  State.reset.Inv

/-- The invariant is kept by every completed step. -/
def Obligations.StepKeepsTheInvariant : Prop :=
  ∀ s t : State, s.Inv → step s = .next t → t.Inv

/-- The invariant is kept by every host call (a `runProgram` that has not returned is taken as log entry 5 says), so it holds in every state a host can bring about. -/
def Obligations.HostCallsKeepTheInvariant : Prop :=
  (∀ (s : State) (c : HostCall), s.Inv → (s.call c).2.Inv) ∧
  ∀ cs : List HostCall, (State.calls cs State.reset).Inv
end

