-- ==== Sys2Proof/Laws/State.lean ====
section
/-! SUPPORT. One lemma per field per update, so that no later proof unfolds a record update, and the register-file
laws: a read after a write, and that a write leaves every other register alone. -/

namespace Sys2Proof.Machine.State

@[simp] theorem writeGpr_gpr (s : State) (r : RegIdx) (v : Word) : (s.writeGpr r v).gpr = s.gpr.set r v := rfl
@[simp] theorem writeGpr_hi (s : State) (r : RegIdx) (v : Word) : (s.writeGpr r v).hi = s.hi := rfl
@[simp] theorem writeGpr_lo (s : State) (r : RegIdx) (v : Word) : (s.writeGpr r v).lo = s.lo := rfl
@[simp] theorem writeGpr_pc (s : State) (r : RegIdx) (v : Word) : (s.writeGpr r v).pc = s.pc := rfl
@[simp] theorem writeGpr_npc (s : State) (r : RegIdx) (v : Word) : (s.writeGpr r v).npc = s.npc := rfl
@[simp] theorem writeGpr_fpr (s : State) (r : RegIdx) (v : Word) : (s.writeGpr r v).fpr = s.fpr := rfl
@[simp] theorem writeGpr_fcsr (s : State) (r : RegIdx) (v : Word) : (s.writeGpr r v).fcsr = s.fcsr := rfl
@[simp] theorem writeGpr_prog (s : State) (r : RegIdx) (v : Word) : (s.writeGpr r v).prog = s.prog := rfl
@[simp] theorem writeGpr_stop (s : State) (r : RegIdx) (v : Word) : (s.writeGpr r v).stop = s.stop := rfl
@[simp] theorem writeGpr_wordAt (s : State) (r : RegIdx) (v : Word) (i : Int) : (s.writeGpr r v).wordAt i = s.wordAt i := rfl
@[simp] theorem writeGpr_index (s : State) (r : RegIdx) (v : Word) : (s.writeGpr r v).index = s.index := rfl

@[simp] theorem writeHi_gpr (s : State) (v : Word) : (s.writeHi v).gpr = s.gpr := rfl
@[simp] theorem writeHi_hi (s : State) (v : Word) : (s.writeHi v).hi = v := rfl
@[simp] theorem writeHi_lo (s : State) (v : Word) : (s.writeHi v).lo = s.lo := rfl
@[simp] theorem writeHi_pc (s : State) (v : Word) : (s.writeHi v).pc = s.pc := rfl
@[simp] theorem writeHi_npc (s : State) (v : Word) : (s.writeHi v).npc = s.npc := rfl
@[simp] theorem writeHi_fpr (s : State) (v : Word) : (s.writeHi v).fpr = s.fpr := rfl
@[simp] theorem writeHi_fcsr (s : State) (v : Word) : (s.writeHi v).fcsr = s.fcsr := rfl
@[simp] theorem writeHi_prog (s : State) (v : Word) : (s.writeHi v).prog = s.prog := rfl
@[simp] theorem writeHi_stop (s : State) (v : Word) : (s.writeHi v).stop = s.stop := rfl
@[simp] theorem writeHi_wordAt (s : State) (v : Word) (i : Int) : (s.writeHi v).wordAt i = s.wordAt i := rfl
@[simp] theorem writeHi_index (s : State) (v : Word) : (s.writeHi v).index = s.index := rfl
@[simp] theorem writeHi_readGpr (s : State) (v : Word) (q : RegIdx) : (s.writeHi v).readGpr q = s.readGpr q := rfl

@[simp] theorem writeLo_gpr (s : State) (v : Word) : (s.writeLo v).gpr = s.gpr := rfl
@[simp] theorem writeLo_hi (s : State) (v : Word) : (s.writeLo v).hi = s.hi := rfl
@[simp] theorem writeLo_lo (s : State) (v : Word) : (s.writeLo v).lo = v := rfl
@[simp] theorem writeLo_pc (s : State) (v : Word) : (s.writeLo v).pc = s.pc := rfl
@[simp] theorem writeLo_npc (s : State) (v : Word) : (s.writeLo v).npc = s.npc := rfl
@[simp] theorem writeLo_fpr (s : State) (v : Word) : (s.writeLo v).fpr = s.fpr := rfl
@[simp] theorem writeLo_fcsr (s : State) (v : Word) : (s.writeLo v).fcsr = s.fcsr := rfl
@[simp] theorem writeLo_prog (s : State) (v : Word) : (s.writeLo v).prog = s.prog := rfl
@[simp] theorem writeLo_stop (s : State) (v : Word) : (s.writeLo v).stop = s.stop := rfl
@[simp] theorem writeLo_wordAt (s : State) (v : Word) (i : Int) : (s.writeLo v).wordAt i = s.wordAt i := rfl
@[simp] theorem writeLo_index (s : State) (v : Word) : (s.writeLo v).index = s.index := rfl
@[simp] theorem writeLo_readGpr (s : State) (v : Word) (q : RegIdx) : (s.writeLo v).readGpr q = s.readGpr q := rfl

@[simp] theorem defaultAdvance_gpr (s : State) : (s.defaultAdvance).gpr = s.gpr := rfl
@[simp] theorem defaultAdvance_hi (s : State) : (s.defaultAdvance).hi = s.hi := rfl
@[simp] theorem defaultAdvance_lo (s : State) : (s.defaultAdvance).lo = s.lo := rfl
@[simp] theorem defaultAdvance_pc (s : State) : (s.defaultAdvance).pc = s.npc := rfl
@[simp] theorem defaultAdvance_npc (s : State) : (s.defaultAdvance).npc = s.npc + 4#32 := rfl
@[simp] theorem defaultAdvance_fpr (s : State) : (s.defaultAdvance).fpr = s.fpr := rfl
@[simp] theorem defaultAdvance_fcsr (s : State) : (s.defaultAdvance).fcsr = s.fcsr := rfl
@[simp] theorem defaultAdvance_prog (s : State) : (s.defaultAdvance).prog = s.prog := rfl
@[simp] theorem defaultAdvance_stop (s : State) : (s.defaultAdvance).stop = s.stop := rfl
@[simp] theorem defaultAdvance_wordAt (s : State) (i : Int) : (s.defaultAdvance).wordAt i = s.wordAt i := rfl
@[simp] theorem defaultAdvance_readGpr (s : State) (q : RegIdx) : (s.defaultAdvance).readGpr q = s.readGpr q := rfl

@[simp] theorem redirect_gpr (s : State) (target : Word) : (s.redirect target).gpr = s.gpr := rfl
@[simp] theorem redirect_hi (s : State) (target : Word) : (s.redirect target).hi = s.hi := rfl
@[simp] theorem redirect_lo (s : State) (target : Word) : (s.redirect target).lo = s.lo := rfl
@[simp] theorem redirect_pc (s : State) (target : Word) : (s.redirect target).pc = s.npc := rfl
@[simp] theorem redirect_npc (s : State) (target : Word) : (s.redirect target).npc = target := rfl
@[simp] theorem redirect_fpr (s : State) (target : Word) : (s.redirect target).fpr = s.fpr := rfl
@[simp] theorem redirect_fcsr (s : State) (target : Word) : (s.redirect target).fcsr = s.fcsr := rfl
@[simp] theorem redirect_prog (s : State) (target : Word) : (s.redirect target).prog = s.prog := rfl
@[simp] theorem redirect_stop (s : State) (target : Word) : (s.redirect target).stop = s.stop := rfl
@[simp] theorem redirect_wordAt (s : State) (target : Word) (i : Int) : (s.redirect target).wordAt i = s.wordAt i := rfl
@[simp] theorem redirect_readGpr (s : State) (target : Word) (q : RegIdx) : (s.redirect target).readGpr q = s.readGpr q := rfl

@[simp] theorem recordStop_gpr (s : State) (why : Stop) : (s.recordStop why).gpr = s.gpr := rfl
@[simp] theorem recordStop_hi (s : State) (why : Stop) : (s.recordStop why).hi = s.hi := rfl
@[simp] theorem recordStop_lo (s : State) (why : Stop) : (s.recordStop why).lo = s.lo := rfl
@[simp] theorem recordStop_pc (s : State) (why : Stop) : (s.recordStop why).pc = s.pc := rfl
@[simp] theorem recordStop_npc (s : State) (why : Stop) : (s.recordStop why).npc = s.npc := rfl
@[simp] theorem recordStop_fpr (s : State) (why : Stop) : (s.recordStop why).fpr = s.fpr := rfl
@[simp] theorem recordStop_fcsr (s : State) (why : Stop) : (s.recordStop why).fcsr = s.fcsr := rfl
@[simp] theorem recordStop_prog (s : State) (why : Stop) : (s.recordStop why).prog = s.prog := rfl
@[simp] theorem recordStop_stop (s : State) (why : Stop) : (s.recordStop why).stop = some why := rfl
@[simp] theorem recordStop_wordAt (s : State) (why : Stop) (i : Int) : (s.recordStop why).wordAt i = s.wordAt i := rfl
@[simp] theorem recordStop_index (s : State) (why : Stop) : (s.recordStop why).index = s.index := rfl
@[simp] theorem recordStop_readGpr (s : State) (why : Stop) (q : RegIdx) : (s.recordStop why).readGpr q = s.readGpr q := rfl

@[simp] theorem hostReset_gpr (s : State) : (s.hostReset).gpr = Vector.replicate 32 0#32 := rfl
@[simp] theorem hostReset_hi (s : State) : (s.hostReset).hi = 0#32 := rfl
@[simp] theorem hostReset_lo (s : State) : (s.hostReset).lo = 0#32 := rfl
@[simp] theorem hostReset_pc (s : State) : (s.hostReset).pc = 4#32 := rfl
@[simp] theorem hostReset_npc (s : State) : (s.hostReset).npc = 4#32 := rfl
@[simp] theorem hostReset_fpr (s : State) : (s.hostReset).fpr = Vector.replicate 32 0#32 := rfl
@[simp] theorem hostReset_fcsr (s : State) : (s.hostReset).fcsr = 0#32 := rfl
@[simp] theorem hostReset_prog (s : State) : (s.hostReset).prog = s.prog := rfl
@[simp] theorem hostReset_stop (s : State) : (s.hostReset).stop = none := rfl
@[simp] theorem hostReset_wordAt (s : State) (i : Int) : (s.hostReset).wordAt i = s.wordAt i := rfl

@[simp] theorem readGpr_writeGpr_self (s : State) (r : RegIdx) (v : Word) : (s.writeGpr r v).readGpr r = v := by
  simp [readGpr]

theorem readGpr_writeGpr_of_ne (s : State) {q r : RegIdx} (v : Word) (h : q ≠ r) :
    (s.writeGpr r v).readGpr q = s.readGpr q := by
  simp only [readGpr, writeGpr, Fin.getElem_fin]
  exact Vector.getElem_set_ne r.isLt q.isLt (fun e => h (Fin.ext e.symm))

theorem readGpr_writeGpr (s : State) (q r : RegIdx) (v : Word) :
    (s.writeGpr r v).readGpr q = if q = r then v else s.readGpr q := by
  split
  · next h => subst h; simp
  · next h => exact readGpr_writeGpr_of_ne s v h

@[simp] theorem hostReset_readGpr (s : State) (q : RegIdx) : s.hostReset.readGpr q = 0#32 := by
  simp [readGpr]

@[simp] theorem reset_readGpr (q : RegIdx) : State.reset.readGpr q = 0#32 := by
  simp [readGpr, State.reset]

/-- Two states with the same registers, pair, slots, binding and stop are one state. -/
theorem ext_of_reads {s t : State} (hg : ∀ q, t.readGpr q = s.readGpr q) (hhi : t.hi = s.hi) (hlo : t.lo = s.lo)
    (hpc : t.pc = s.pc) (hnpc : t.npc = s.npc) (hfpr : t.fpr = s.fpr) (hfcsr : t.fcsr = s.fcsr)
    (hprog : t.prog = s.prog) (hstop : t.stop = s.stop) : t = s := by
  have hgpr : t.gpr = s.gpr := Vector.ext fun i hi => hg ⟨i, hi⟩
  cases s; cases t; simp_all

end Sys2Proof.Machine.State
end

