-- ==== Sys2Proof/Laws/Ops.lean ====
section
/-! SUPPORT. One lemma per shared operation, saying all it can do: the fetch index, the fetch port, when a step is
enabled, what an outcome leaves, the operand forms as numbers, and the store's operations, each of which keeps its form
(spec/20_memory.md R41 to R44, spec/30_encoding.md R64 to R66, spec/40_dispatch.md R90). -/

namespace Sys2Proof.Machine

/-! ### The fetch index -/

/-- The fetch index as a bound on the number `nPC`. -/
theorem fetchIndex_le_iff (v : Word) (i : Int) : i ≤ fetchIndex v ↔ 4 * (i + 1) ≤ v.toNat := by
  unfold fetchIndex
  omega

theorem fetchIndex_lt_iff (v : Word) (i : Int) : fetchIndex v < i ↔ (v.toNat : Int) < 4 * (i + 1) := by
  unfold fetchIndex
  omega

theorem inBounds_iff (n : Nat) (v : Word) : inBounds n v = true ↔ 4 ≤ v.toNat ∧ v.toNat ≤ 4 * n + 3 := by
  unfold inBounds fetchIndex
  simp only [Bool.and_eq_true, decide_eq_true_eq]
  omega

/-! ### The store -/

namespace Memory

@[simp] theorem wordAt_none (i : Int) : Memory.wordAt none i = none := rfl

/-- A word is read exactly at the indices of the Program. -/
theorem wordAt_some_iff {p : Program} {i : Int} {w : Word} :
    Memory.wordAt (some p) i = some w ↔ 0 ≤ i ∧ p[i.toNat]? = some w := by
  simp only [wordAt]
  split <;> simp_all

theorem wordAt_isSome_iff {p : Program} {i : Int} :
    (Memory.wordAt (some p) i).isSome = true ↔ 0 ≤ i ∧ i < p.length := by
  simp only [wordAt]
  split
  · rw [← not_iff_not, Bool.not_eq_true, Option.isSome_eq_false_iff, Option.isNone_iff_eq_none,
      List.getElem?_eq_none_iff]
    omega
  · simp
    omega

@[simp] theorem wf_none : Memory.wf none = true := rfl

theorem wf_some_iff {p : Program} : Memory.wf (some p) = true ↔ p.length ≤ Config.nMax := by
  simp [Memory.wf]

end Memory

/-- A Program with a word placed in it is as long as it was, or just long enough to hold the word. -/
theorem Program.length_put (p : Program) (i : Nat) (w : Word) :
    (Program.put p i w).length = max p.length (i + 1) := by
  induction p, i, w using Program.put.induct with
  | case1 w => rfl
  | case2 i w ih => simp only [Program.put, List.length_cons, ih, List.length_nil]; omega
  | case3 x p w => simp only [Program.put, List.length_cons]; omega
  | case4 x p i w ih => simp only [Program.put, List.length_cons, ih]; omega

/-- The placed word is read where it was placed. -/
theorem Program.getElem?_put_self (p : Program) (i : Nat) (w : Word) : (Program.put p i w)[i]? = some w := by
  induction p, i, w using Program.put.induct with
  | case1 w => rfl
  | case2 i w ih => simpa [Program.put] using ih
  | case3 x p w => rfl
  | case4 x p i w ih => simpa [Program.put] using ih

/-- Placing a word leaves every other word of the Program alone. -/
theorem Program.getElem?_put_of_ne {p : Program} {i j : Nat} (w : Word) (hj : j < p.length) (h : j ≠ i) :
    (Program.put p i w)[j]? = p[j]? := by
  induction p, i, w using Program.put.induct generalizing j with
  | case1 w => simp at hj
  | case2 i w ih => simp at hj
  | case3 x p w =>
    cases j with
    | zero => exact absurd rfl h
    | succ j => simp [Program.put]
  | case4 x p i w ih =>
    cases j with
    | zero => simp [Program.put]
    | succ j => simpa [Program.put] using ih (by simpa using hj) (by simpa using h)

namespace State

/-! ### The fetch port and the enabled step -/

/-- A fetch succeeds exactly when a Program is bound, no stop is recorded and the index names a word. -/
theorem fetch_ok_iff {s : State} {w : Word} :
    s.fetch = .ok w ↔ s.stop = none ∧ s.wordAt s.index = some w := by
  unfold fetch
  cases hp : s.prog with
  | none => simp [wordAt, hp]
  | some p =>
    cases hs : s.stop with
    | some why => simp
    | none =>
      simp only [true_and]
      split <;> simp_all

/-- The index of a fetched word lies in the bound Program. -/
theorem index_of_fetch {s : State} {w : Word} (h : s.fetch = .ok w) :
    ∃ p, s.prog = some p ∧ 0 ≤ s.index ∧ s.index < p.length ∧ p[s.index.toNat]? = some w := by
  obtain ⟨-, hw⟩ := fetch_ok_iff.1 h
  unfold wordAt at hw
  cases hp : s.prog with
  | none => simp [hp] at hw
  | some p =>
    rw [hp] at hw
    obtain ⟨h0, hget⟩ := Memory.wordAt_some_iff.1 hw
    have hlt := (List.getElem?_eq_some_iff.1 hget).1
    exact ⟨p, rfl, h0, by omega, hget⟩

theorem enabled_iff_fetch (s : State) : s.enabled = true ↔ ∃ w, s.fetch = .ok w := by
  unfold enabled
  cases hp : s.prog with
  | none => simp [fetch, hp]
  | some p =>
    have hb : inBounds p.length s.npc = true ↔ (s.wordAt s.index).isSome = true := by
      simp only [wordAt, hp, Memory.wordAt_isSome_iff, inBounds, Bool.and_eq_true, decide_eq_true_eq, index]
    simp only [Bool.and_eq_true, hb, Option.isNone_iff_eq_none, Option.isSome_iff_exists, fetch_ok_iff,
      exists_and_left]

theorem not_enabled_of_stop {s : State} {why : Stop} (h : s.stop = some why) : s.enabled = false := by
  unfold enabled
  split <;> simp [h]

@[simp] theorem recordStop_enabled (s : State) (why : Stop) : (s.recordStop why).enabled = false :=
  not_enabled_of_stop rfl

/-! ### What an outcome leaves -/

@[simp] theorem afterOutcome_next (s t : State) : s.afterOutcome (.next t) = t := rfl

@[simp] theorem afterOutcome_fault (s : State) (r : Fault) :
    s.afterOutcome (.fault r) = s.recordStop (.fault r) := rfl

@[simp] theorem afterOutcome_unsettled (s : State) (k : Key) :
    s.afterOutcome (.refused (.unsettledKey k)) = s.recordStop (.refuse k) := rfl

@[simp] theorem afterOutcome_notEnabled (s : State) (why : NotEnabled) :
    s.afterOutcome (.refused (.notEnabled why)) = s := rfl

/-! ### The host's operations -/

theorem loadProgram?_eq_some_iff {seq : Program} {t : State} :
    State.loadProgram? seq = some t ↔
      seq.length ≤ Config.nMax ∧ t = { State.reset with prog := some seq } := by
  unfold loadProgram? Program.wf
  split <;> simp_all [eq_comm]

theorem setGpr?_eq_some_iff {s t : State} {index : Int} {value : Word} :
    s.setGpr? index value = some t ↔ ∃ r : RegIdx, (r.val : Int) = index ∧ t = s.writeGpr r value := by
  unfold setGpr? hostReg?
  split
  · next h =>
    simp only [Option.map_some, Option.some.injEq]
    constructor
    · intro e
      exact ⟨_, by simp; omega, e.symm⟩
    · rintro ⟨r, hr, e⟩
      subst e
      congr
      omega
  · next h =>
    simp only [Option.map_none, reduceCtorEq, false_iff, not_exists, not_and]
    intro r hr
    exact absurd ⟨by omega, by omega⟩ h

/-! ### Every operation keeps the store's form -/

@[simp] theorem reset_prog_wf : State.reset.prog.wf = true := rfl

theorem hostReset_prog_wf {s : State} (h : s.prog.wf = true) : s.hostReset.prog.wf = true := h

theorem loadProgram?_prog_wf {seq : Program} {t : State} (h : State.loadProgram? seq = some t) :
    t.prog.wf = true := by
  obtain ⟨hl, rfl⟩ := loadProgram?_eq_some_iff.1 h
  exact Memory.wf_some_iff.2 hl

theorem setGpr?_prog_wf {s t : State} {index : Int} {value : Word} (hs : s.prog.wf = true)
    (h : s.setGpr? index value = some t) : t.prog.wf = true := by
  obtain ⟨r, -, rfl⟩ := setGpr?_eq_some_iff.1 h
  exact hs

theorem placeWord_prog_wf {s : State} (w : Word) (h : s.prog.wf = true) : (s.placeWord w).prog.wf = true := by
  refine Memory.wf_some_iff.2 ?_
  have hp : (s.prog.getD []).length ≤ Config.nMax := by
    cases hp : s.prog with
    | none => simp
    | some p => rw [hp] at h; simpa using Memory.wf_some_iff.1 h
  have hn : fetchIndex (if fetchable s.npc then s.npc else Config.resetPc) < Config.nMax := by
    split
    · next hf =>
      simp only [fetchable, inBounds, Bool.and_eq_true, decide_eq_true_eq] at hf
      exact hf.2
    · decide
  rw [Program.length_put]
  have hpos : 0 < Config.nMax := by decide
  omega

end State

/-! ### Operand forms as numbers -/

theorem sext16_toInt (imm : BitVec 16) : (sext16 imm).toInt = imm.toInt := by
  simp [sext16, BitVec.toInt_signExtend_of_le]

theorem zext16_toNat (imm : BitVec 16) : (zext16 imm).toNat = imm.toNat := by
  have := imm.isLt
  simp only [zext16, BitVec.toNat_setWidth]
  omega

theorem branchOffset_eq (imm : BitVec 16) : branchOffset imm = BitVec.ofInt 32 (4 * imm.toInt) := by
  have h : branchOffset imm = 4#32 * sext16 imm := by
    rw [branchOffset, BitVec.shiftLeft_eq_mul_twoPow, BitVec.mul_comm]
    rfl
  rw [h, ← sext16_toInt, BitVec.ofInt_mul, BitVec.ofInt_toInt]
  rfl

theorem jumpField_toNat (address : BitVec 26) : (jumpField address).toNat = 4 * address.toNat := by
  have := address.isLt
  simp only [jumpField, BitVec.toNat_shiftLeft, BitVec.toNat_setWidth, Nat.shiftLeft_eq]
  omega

/-- The region mask keeps the high four bits (R152). -/
theorem regionMask_getElem : ∀ (i : Nat) (h : i < 32), (0xF0000000#32)[i] = decide (28 ≤ i) := by decide

/-- The region bits do not overlap the shifted jump field, so the OR of R152 is a sum. -/
theorem jumpTarget_eq (pcOld : Word) (address : BitVec 26) :
    jumpTarget pcOld address = jumpRegion pcOld + jumpField address + 4#32 := by
  unfold jumpTarget
  congr 1
  refine (BitVec.add_eq_or_of_and_eq_zero _ _ ?_).symm
  ext i hi
  simp only [jumpRegion, jumpField, BitVec.getElem_and, BitVec.getElem_shiftLeft, BitVec.getElem_zero,
    regionMask_getElem i hi]
  rcases Nat.lt_or_ge i 28 with h | h
  · simp [h]
  · have : address.getLsbD (i - 2) = false := BitVec.getLsbD_of_ge _ _ (by omega)
    simp [this]

theorem jumpRegion_toNat (pcOld : Word) : (jumpRegion pcOld).toNat = pcOld.toNat / 2 ^ 28 * 2 ^ 28 := by
  have h : jumpRegion pcOld = pcOld >>> 28 <<< 28 := by
    ext i hi
    simp only [jumpRegion, BitVec.getElem_and, BitVec.getElem_shiftLeft, regionMask_getElem i hi]
    rcases Nat.lt_or_ge i 28 with h | h
    · simp [h]
    · have e : 28 + (i - 28) = i := by omega
      simp [Nat.not_lt.2 h, e, h, BitVec.getLsbD_eq_getElem hi]
  have := pcOld.isLt
  rw [h, BitVec.toNat_shiftLeft, BitVec.toNat_ushiftRight, Nat.shiftLeft_eq, Nat.shiftRight_eq_div_pow]
  omega

end Sys2Proof.Machine
end

