-- ==== Sys2Proof/Laws/Arith.lean ====
section
/-! SUPPORT. The results of multiply and divide as numbers (spec/42_muldiv.md R130 to R132): one lemma per result
function. -/

namespace Sys2Proof.Machine

theorem sext32to64_toInt (p : Word) : (sext32to64 p).toInt = p.toInt := by
  rw [sext32to64, BitVec.toInt_signExtend_of_le (by decide)]

theorem lowWord_sext32to64 (p : Word) : lowWord (sext32to64 p) = p := by
  apply BitVec.eq_of_getLsbD_eq
  intro i hi
  simp [lowWord, sext32to64, BitVec.getLsbD_signExtend, hi]
  omega

theorem allOnes_getLsbD : ∀ i < 32, (0xFFFFFFFF#32).getLsbD i = true := by decide

/-- The high word of a sign-extended word is its sign fill. -/
theorem highWord_sext32to64 (p : Word) :
    highWord (sext32to64 p) = if p.getLsbD 31 then 0xFFFFFFFF#32 else 0x00000000#32 := by
  have hm : p.msb = p.getLsbD 31 := rfl
  apply BitVec.eq_of_getLsbD_eq
  intro i hi
  have h2 : 32 + i < 64 := by omega
  cases hp : p.getLsbD 31 <;>
    simp only [highWord, sext32to64, BitVec.getLsbD_extractLsb, BitVec.getLsbD_signExtend, h2, hm, hp] <;>
    simp [hi, allOnes_getLsbD i hi]

/-- The two words of a 64-bit value, joined, are the value. -/
theorem highWord_append_lowWord (v : BitVec 64) : (highWord v ++ lowWord v : BitVec (32 + 32)) = v := by
  apply BitVec.eq_of_toNat_eq
  have := v.isLt
  rw [BitVec.toNat_append, ← Nat.shiftLeft_add_eq_or_of_lt (lowWord v).isLt, Nat.shiftLeft_eq]
  simp only [highWord, lowWord, BitVec.extractLsb_toNat, Nat.shiftRight_eq_div_pow]
  omega

theorem toInt_ne_zero {b : Word} (hb : b ≠ 0#32) : b.toInt ≠ 0 :=
  fun h => hb (BitVec.eq_of_toInt_eq (by simpa using h))

/-- The quotient of `div` is exact: the one pair that would overflow is excluded. -/
theorem divQuotient_toInt {a b : Word} (hb : b ≠ 0#32) (ho : ¬ (a = 0x80000000#32 ∧ b = 0xFFFFFFFF#32)) :
    (divQuotient a b).toInt = a.toInt.tdiv b.toInt := by
  have hb' := toInt_ne_zero hb
  have ho' : ¬ (a.toInt = -2 ^ 31 ∧ b.toInt = -1) := by
    rintro ⟨h1, h2⟩
    exact ho ⟨BitVec.eq_of_toInt_eq (by rw [h1]; decide), BitVec.eq_of_toInt_eq (by rw [h2]; decide)⟩
  have la := BitVec.le_toInt a
  have ua := @BitVec.toInt_lt _ a
  have habs : (a.toInt.tdiv b.toInt).natAbs = a.toInt.natAbs / b.toInt.natAbs := Int.natAbs_tdiv _ _
  have hle : a.toInt.natAbs / b.toInt.natAbs ≤ a.toInt.natAbs := Nat.div_le_self _ _
  have hup : a.toInt.tdiv b.toInt < 2 ^ 31 := by
    by_contra hc
    have ea : a.toInt = -2 ^ 31 := by omega
    have eb : b.toInt.natAbs = 1 := by
      by_contra hne
      have h2 : a.toInt.natAbs / b.toInt.natAbs ≤ a.toInt.natAbs / 2 := Nat.div_le_div_left (by omega) (by omega)
      omega
    rcases (by omega : b.toInt = 1 ∨ b.toInt = -1) with h | h
    · rw [h, Int.tdiv_one] at hc
      omega
    · exact ho' ⟨ea, h⟩
  rw [divQuotient, quotT, BitVec.toInt_ofInt]
  apply Int.bmod_eq_of_le <;> omega

/-- The remainder of `div` is exact. -/
theorem divRemainder_toInt {a b : Word} (hb : b ≠ 0#32) :
    (divRemainder a b).toInt = a.toInt - b.toInt * a.toInt.tdiv b.toInt := by
  have hb' := toInt_ne_zero hb
  have lb := BitVec.le_toInt b
  have ub := @BitVec.toInt_lt _ b
  have e : a.toInt - b.toInt * a.toInt.tdiv b.toInt = a.toInt.tmod b.toInt := by
    have := Int.mul_tdiv_add_tmod a.toInt b.toInt
    omega
  have hlt : (a.toInt.tmod b.toInt).natAbs < b.toInt.natAbs := by
    rw [Int.natAbs_tmod]
    exact Nat.mod_lt _ (by omega)
  rw [divRemainder, remT, quotT, e, BitVec.toInt_ofInt]
  apply Int.bmod_eq_of_le <;> omega

theorem divuQuotient_toNat (a b : Word) : (divuQuotient a b).toNat = a.toNat / b.toNat := by
  have h : a.toNat / b.toNat ≤ a.toNat := Nat.div_le_self _ _
  have := a.isLt
  rw [divuQuotient, BitVec.toNat_ofNat, Nat.mod_eq_of_lt (Nat.lt_of_le_of_lt h this)]

theorem divuRemainder_toNat (a b : Word) :
    (divuRemainder a b).toNat = a.toNat - b.toNat * (a.toNat / b.toNat) := by
  have := a.isLt
  rw [divuRemainder, BitVec.toNat_ofNat]
  omega

end Sys2Proof.Machine
end

