-- ==== Sys2Proof/Laws/Decode.lean ====
section
/-! SUPPORT. The small lemmas of Decode.lean: register fields, a word as the join of its fields, the fields of an encoded
word, the number of a dispatch key, and what a key selects (spec/30_encoding.md R61 to R70). -/

namespace Sys2Proof

/-! ### Register fields -/

@[simp] theorem regOf_regBits (r : RegIdx) : regOf (regBits r) = r := rfl

@[simp] theorem regBits_regOf (b : BitVec 5) : regBits (regOf b) = b := rfl

@[simp] theorem regBits_toNat (r : RegIdx) : (regBits r).toNat = r.val := rfl

@[simp] theorem regOf_val (b : BitVec 5) : (regOf b).val = b.toNat := rfl

theorem regBits_inj {q r : RegIdx} : regBits q = regBits r ↔ q = r :=
  ⟨fun h => by simpa using congrArg regOf h, fun h => h ▸ rfl⟩

/-! ### A word as the join of its six R-shape fields -/

/-- A word put together from the six fields of the R shape (R62). -/
def joinR (op : BitVec 6) (rs rt rd shamt : BitVec 5) (funct : BitVec 6) : Word :=
  op ++ rs ++ rt ++ rd ++ shamt ++ funct

theorem append_toNat {m n : Nat} (x : BitVec m) (y : BitVec n) :
    (x ++ y).toNat = x.toNat * 2 ^ n + y.toNat := by
  rw [BitVec.toNat_append, ← Nat.shiftLeft_add_eq_or_of_lt y.isLt, Nat.shiftLeft_eq]

theorem joinR_toNat (op : BitVec 6) (rs rt rd shamt : BitVec 5) (funct : BitVec 6) :
    (joinR op rs rt rd shamt funct).toNat =
      op.toNat * 2 ^ 26 + rs.toNat * 2 ^ 21 + rt.toNat * 2 ^ 16 + rd.toNat * 2 ^ 11 + shamt.toNat * 2 ^ 6 +
        funct.toNat := by
  have h : (op ++ rs ++ rt ++ rd ++ shamt ++ funct).toNat =
      op.toNat * 2 ^ 26 + rs.toNat * 2 ^ 21 + rt.toNat * 2 ^ 16 + rd.toNat * 2 ^ 11 + shamt.toNat * 2 ^ 6 +
        funct.toNat := by
    simp only [append_toNat]
    omega
  exact h

/-- The fields of a word, joined, are the word: none of its bits is lost. -/
theorem joinR_instructionView (w : Word) :
    joinR (instructionView w).opcode (regBits (instructionView w).rs) (regBits (instructionView w).rt)
      (regBits (instructionView w).rd) (instructionView w).shamt (instructionView w).funct = w := by
  apply BitVec.eq_of_toNat_eq
  have := w.isLt
  simp only [joinR_toNat, instructionView, regBits_regOf, BitVec.extractLsb_toNat, Nat.shiftRight_eq_div_pow]
  omega

theorem joinR_inj {a a' : BitVec 6} {b c d e b' c' d' e' : BitVec 5} {f f' : BitVec 6} :
    joinR a b c d e f = joinR a' b' c' d' e' f' ↔
      a = a' ∧ b = b' ∧ c = c' ∧ d = d' ∧ e = e' ∧ f = f' := by
  have := a.isLt; have := b.isLt; have := c.isLt; have := d.isLt; have := e.isLt; have := f.isLt
  have := a'.isLt; have := b'.isLt; have := c'.isLt; have := d'.isLt; have := e'.isLt; have := f'.isLt
  simp only [BitVec.toNat_eq, joinR_toNat]
  omega

/-- Masking acts field by field. -/
theorem joinR_and (a a' : BitVec 6) (b c d e b' c' d' e' : BitVec 5) (f f' : BitVec 6) :
    joinR a b c d e f &&& joinR a' b' c' d' e' f' =
      joinR (a &&& a') (b &&& b') (c &&& c') (d &&& d') (e &&& e') (f &&& f') := by
  have h : (a ++ b ++ c ++ d ++ e ++ f) &&& (a' ++ b' ++ c' ++ d' ++ e' ++ f') =
      (a &&& a') ++ (b &&& b') ++ (c &&& c') ++ (d &&& d') ++ (e &&& e') ++ (f &&& f') := by
    simp only [BitVec.and_append]
  exact h

theorem and_ones6 (x : BitVec 6) : x &&& 0x3F#6 = x := BitVec.and_allOnes

theorem and_ones5 (x : BitVec 5) : x &&& 0x1F#5 = x := BitVec.and_allOnes

/-! ### The opcode and the function field as a mask and a match (R69) -/

theorem mask_special_iff (w : Word) (f : BitVec 6) :
    w &&& 0xFC00003F#32 = f.setWidth 32 ↔
      (instructionView w).opcode = 0#6 ∧ (instructionView w).funct = f := by
  have hm : 0xFC00003F#32 = joinR 0x3F#6 0#5 0#5 0#5 0#5 0x3F#6 := by decide
  have hv : f.setWidth 32 = joinR 0#6 0#5 0#5 0#5 0#5 f := by
    apply BitVec.eq_of_toNat_eq
    have := f.isLt
    simp only [joinR_toNat, BitVec.toNat_setWidth, BitVec.toNat_ofNat]
    omega
  rw [hv, hm, ← joinR_instructionView w, joinR_and, joinR_inj, joinR_instructionView]
  simp [and_ones6]

theorem mask_primary_iff (w : Word) (op : BitVec 6) :
    w &&& 0xFC000000#32 = joinR op 0#5 0#5 0#5 0#5 0#6 ↔ (instructionView w).opcode = op := by
  have hm : 0xFC000000#32 = joinR 0x3F#6 0#5 0#5 0#5 0#5 0#6 := by decide
  rw [hm, ← joinR_instructionView w, joinR_and, joinR_inj, joinR_instructionView]
  simp [and_ones6]

/-! ### The fields of an encoded word -/

section Encoded
variable (op funct : BitVec 6) (rs rt rd : RegIdx) (imm : BitVec 16) (address : BitVec 26)

theorem encodeR_toNat : (encodeR funct rs rt rd).toNat =
    rs.val * 2 ^ 21 + rt.val * 2 ^ 16 + rd.val * 2 ^ 11 + funct.toNat := by
  have h : (0#6 ++ regBits rs ++ regBits rt ++ regBits rd ++ 0#5 ++ funct).toNat =
      rs.val * 2 ^ 21 + rt.val * 2 ^ 16 + rd.val * 2 ^ 11 + funct.toNat := by
    simp only [append_toNat, regBits_toNat, BitVec.toNat_ofNat]
    omega
  exact h

theorem encodeI_toNat : (encodeI op rs rt imm).toNat =
    op.toNat * 2 ^ 26 + rs.val * 2 ^ 21 + rt.val * 2 ^ 16 + imm.toNat := by
  have h : (op ++ regBits rs ++ regBits rt ++ imm).toNat =
      op.toNat * 2 ^ 26 + rs.val * 2 ^ 21 + rt.val * 2 ^ 16 + imm.toNat := by
    simp only [append_toNat, regBits_toNat]
    omega
  exact h

theorem encodeJ_toNat : (encodeJ op address).toNat = op.toNat * 2 ^ 26 + address.toNat := by
  have h : (op ++ address).toNat = op.toNat * 2 ^ 26 + address.toNat := append_toNat op address
  exact h

theorem instructionView_encodeR : instructionView (encodeR funct rs rt rd) =
    { opcode := 0#6, rs := rs, rt := rt, rd := rd, shamt := 0#5, funct := funct
      imm := BitVec.ofNat 16 (rd.val * 2 ^ 11 + funct.toNat)
      address := BitVec.ofNat 26 (rs.val * 2 ^ 21 + rt.val * 2 ^ 16 + rd.val * 2 ^ 11 + funct.toNat) } := by
  have := funct.isLt
  simp only [instructionView, InstructionView.mk.injEq, BitVec.toNat_eq, Fin.ext_iff, regOf_val,
    BitVec.extractLsb_toNat, encodeR_toNat, Nat.shiftRight_eq_div_pow, BitVec.toNat_ofNat]
  refine ⟨?_, ?_, ?_, ?_, ?_, ?_, ?_, ?_⟩ <;> omega

theorem encodeI_fields : (instructionView (encodeI op rs rt imm)).opcode = op ∧
    (instructionView (encodeI op rs rt imm)).rs = rs ∧ (instructionView (encodeI op rs rt imm)).rt = rt ∧
    (instructionView (encodeI op rs rt imm)).imm = imm := by
  have := op.isLt
  have := imm.isLt
  simp only [instructionView, BitVec.toNat_eq, Fin.ext_iff, regOf_val, BitVec.extractLsb_toNat, encodeI_toNat,
    Nat.shiftRight_eq_div_pow]
  refine ⟨?_, ?_, ?_, ?_⟩ <;> omega

theorem encodeJ_fields : (instructionView (encodeJ op address)).opcode = op ∧
    (instructionView (encodeJ op address)).address = address := by
  have := op.isLt
  have := address.isLt
  simp only [instructionView, BitVec.toNat_eq, BitVec.extractLsb_toNat, encodeJ_toNat, Nat.shiftRight_eq_div_pow]
  constructor <;> omega

/-! ### Keys -/

theorem keyOf_toNat : (keyOf op funct).toNat = if op = 0#6 then funct.toNat * 16 else op.toNat := by
  have := funct.isLt
  have := op.isLt
  unfold keyOf
  split
  · simp only [BitVec.toNat_shiftLeft, BitVec.toNat_setWidth, Nat.shiftLeft_eq]
    omega
  · simp only [BitVec.toNat_setWidth]
    omega

theorem keyOf_special : keyOf 0#6 funct = funct.setWidth 10 <<< 4 := rfl

theorem keyOf_primary (h : op ≠ 0#6) : keyOf op funct = op.setWidth 10 := if_neg h

theorem dispatchKey_encodeR : dispatchKey (encodeR funct rs rt rd) = funct.setWidth 10 <<< 4 := by
  simp only [dispatchKey, instructionView_encodeR, keyOf_special]

theorem dispatchKey_encodeI (h : op ≠ 0#6) : dispatchKey (encodeI op rs rt imm) = op.setWidth 10 := by
  simp only [dispatchKey, (encodeI_fields op rs rt imm).1, keyOf_primary _ _ h]

theorem dispatchKey_encodeJ (h : op ≠ 0#6) : dispatchKey (encodeJ op address) = op.setWidth 10 := by
  simp only [dispatchKey, (encodeJ_fields op address).1, keyOf_primary _ _ h]

end Encoded

/-! ### What a key selects -/

theorem lookup_some {rows : List DispatchRow} {k : Key} {row : DispatchRow} (h : lookup rows k = some row) :
    row ∈ rows ∧ row.key = k :=
  ⟨List.mem_of_find?_eq_some h, by simpa using List.find?_some h⟩

theorem lookup_none {rows : List DispatchRow} {k : Key} (h : lookup rows k = none) : k ∉ rows.map (·.key) := by
  simp only [lookup, List.find?_eq_none, beq_iff_eq] at h
  simp only [List.mem_map, not_exists, not_and]
  exact h

/-- No two rows of the two tables share a key. -/
theorem keys_nodup : ((dispatchTable ++ unsettledTable).map (·.key)).Nodup := by decide

/-- Once a word's key is known, its row is found by evaluation. -/
theorem decode_of_key {w : Word} {k : Key} (h : dispatchKey w = k) :
    decode w = match lookup (dispatchTable ++ unsettledTable) k with
      | some row => .instr (row.build (instructionView w))
      | none => .unmapped k := by
  subst h
  rfl

/-- The decoder's two cases: a row of a table, or a key in neither. -/
theorem decode_cases (w : Word) :
    (∃ row ∈ dispatchTable ++ unsettledTable,
      row.key = dispatchKey w ∧ decode w = .instr (row.build (instructionView w))) ∨
    (dispatchKey w ∉ (dispatchTable ++ unsettledTable).map (·.key) ∧ decode w = .unmapped (dispatchKey w)) := by
  unfold decode
  split
  · next row h =>
    obtain ⟨hm, hk⟩ := lookup_some h
    exact .inl ⟨row, hm, hk, rfl⟩
  · next h => exact .inr ⟨lookup_none h, rfl⟩

/-- Every row builds an instruction that has the row's key. -/
theorem build_key {row : DispatchRow} (h : row ∈ dispatchTable ++ unsettledTable) (v : InstructionView) :
    (row.build v).key = row.key := by
  simp only [dispatchTable, specialRows, primaryRows, unsettledTable, List.cons_append, List.nil_append,
    List.mem_cons, List.not_mem_nil, or_false] at h
  rcases h with h | h | h | h | h | h | h | h | h | h | h | h | h | h | h | h | h | h | h | h | h | h | h | h <;>
    (subst h; rfl)

/-- A decoded instruction has the key of its word. -/
theorem dispatchKey_of_decode {w : Word} {i : Instr} (h : decode w = .instr i) : dispatchKey w = i.key := by
  obtain ⟨row, hm, hk, hd⟩ | ⟨-, hd⟩ := decode_cases w
  · rw [hd, Decoded.instr.injEq] at h
    rw [← hk, ← h, build_key hm]
  · rw [hd] at h
    exact absurd h (by simp)

end Sys2Proof
end

