-- ==== Sys2Proof/Laws/Frames.lean ====
section
/-! SUPPORT. The frames of Safety.lean hold of the shared operations, and the mask-and-match form of a table row follows
from its key (spec/30_encoding.md R69; spec/40_dispatch.md R92, R93; spec/60_exceptions.md R184). -/

namespace Sys2Proof

/-- A row selected by a function field: its key decides (R68, R69). -/
theorem selects_special (funct : BitVec 6) (value : Word) (build : InstructionView → Instr)
    (hv : value = funct.setWidth 32)
    (hb : ∀ w, dispatchKey w = funct.setWidth 10 <<< 4 → decode w = .instr (build (instructionView w))) :
    Selects 0xFC00003F#32 value build := by
  intro w h
  rw [hv, mask_special_iff] at h
  exact hb w (by simp only [dispatchKey, h.1, h.2, keyOf_special])

/-- A row selected by the primary opcode: its key decides (R68, R69). -/
theorem selects_primary (op : BitVec 6) (value : Word) (build : InstructionView → Instr)
    (hv : value = joinR op 0#5 0#5 0#5 0#5 0#6) (h0 : op ≠ 0#6)
    (hb : ∀ w, dispatchKey w = op.setWidth 10 → decode w = .instr (build (instructionView w))) :
    Selects 0xFC000000#32 value build := by
  intro w h
  rw [hv, mask_primary_iff] at h
  exact hb w (by simp only [dispatchKey, h, keyOf_primary _ _ h0])

namespace Machine

theorem writesOnlyGpr_writeGpr_advance (s : State) (r : RegIdx) (v : Word) :
    WritesOnlyGpr r v s (s.writeGpr r v).defaultAdvance :=
  ⟨⟨by simp, fun q hq => by simp [State.readGpr_writeGpr_of_ne _ _ hq]⟩, ⟨rfl, rfl⟩, ⟨rfl, rfl⟩,
    ⟨rfl, fun _ => rfl, rfl, rfl, rfl⟩⟩

theorem writesOnlyHiLo_advance (s : State) (hi lo : Word) :
    WritesOnlyHiLo hi lo s ((s.writeHi hi).writeLo lo).defaultAdvance :=
  ⟨rfl, rfl, fun _ => rfl, ⟨rfl, rfl⟩, ⟨rfl, fun _ => rfl, rfl, rfl, rfl⟩⟩

theorem jumpsOnly_redirect (s : State) (target : Word) : JumpsOnly target s (s.redirect target) :=
  ⟨⟨rfl, rfl⟩, fun _ => rfl, ⟨rfl, rfl⟩, ⟨rfl, fun _ => rfl, rfl, rfl, rfl⟩⟩

theorem jumpsOnly_defaultAdvance (s : State) : JumpsOnly (s.npc + 4#32) s s.defaultAdvance :=
  jumpsOnly_redirect s (s.npc + 4#32)

theorem stopsWith_recordStop (s : State) (why : Stop) : StopsWith why s (s.recordStop why) :=
  ⟨rfl, fun _ => rfl, ⟨rfl, rfl⟩, rfl, rfl, rfl, fun _ => rfl, rfl, rfl⟩

theorem registersReset_hostReset (s : State) : RegistersReset s.hostReset :=
  ⟨fun _ => by simp, rfl, rfl, rfl, rfl, rfl, rfl, rfl⟩

end Machine

end Sys2Proof
end

