-- ==== Sys2Proof/Laws/PerInstr.lean ====
section
/-! SUPPORT. Facts about every instruction as syntax, one lemma per constructor: the word the encoder writes has the key
that spec/30_encoding.md R69 and R73 give the instruction. -/

namespace Sys2Proof.Laws.TableKey

/-- The encoded word of an instruction has its key. -/
def Statement (i : Instr) : Prop := dispatchKey (encode i) = i.key

theorem add (rd rs rt : RegIdx) : Statement (.add rd rs rt) := dispatchKey_encodeR _ _ _ _

theorem addu (rd rs rt : RegIdx) : Statement (.addu rd rs rt) := dispatchKey_encodeR _ _ _ _

theorem sub (rd rs rt : RegIdx) : Statement (.sub rd rs rt) := dispatchKey_encodeR _ _ _ _

theorem subu (rd rs rt : RegIdx) : Statement (.subu rd rs rt) := dispatchKey_encodeR _ _ _ _

theorem mult (rs rt : RegIdx) : Statement (.mult rs rt) := dispatchKey_encodeR _ _ _ _

theorem div (rs rt : RegIdx) : Statement (.div rs rt) := dispatchKey_encodeR _ _ _ _

theorem divu (rs rt : RegIdx) : Statement (.divu rs rt) := dispatchKey_encodeR _ _ _ _

theorem jr (rs : RegIdx) : Statement (.jr rs) := dispatchKey_encodeR _ _ _ _

theorem mfhi (rd : RegIdx) : Statement (.mfhi rd) := dispatchKey_encodeR _ _ _ _

theorem mthi (rs : RegIdx) : Statement (.mthi rs) := dispatchKey_encodeR _ _ _ _

theorem mflo (rd : RegIdx) : Statement (.mflo rd) := dispatchKey_encodeR _ _ _ _

theorem mtlo (rs : RegIdx) : Statement (.mtlo rs) := dispatchKey_encodeR _ _ _ _

theorem addi (rt rs : RegIdx) (imm : BitVec 16) : Statement (.addi rt rs imm) := dispatchKey_encodeI _ _ _ _ (by decide)

theorem addiu (rt rs : RegIdx) (imm : BitVec 16) : Statement (.addiu rt rs imm) := dispatchKey_encodeI _ _ _ _ (by decide)

theorem beq (rs rt : RegIdx) (imm : BitVec 16) : Statement (.beq rs rt imm) := dispatchKey_encodeI _ _ _ _ (by decide)

theorem bne (rs rt : RegIdx) (imm : BitVec 16) : Statement (.bne rs rt imm) := dispatchKey_encodeI _ _ _ _ (by decide)

theorem j (address : BitVec 26) : Statement (.j address) := dispatchKey_encodeJ _ _ (by decide)

theorem jal (address : BitVec 26) : Statement (.jal address) := dispatchKey_encodeJ _ _ (by decide)

theorem and : Statement (.and) := dispatchKey_encodeR _ _ _ _

theorem or : Statement (.or) := dispatchKey_encodeR _ _ _ _

theorem xor : Statement (.xor) := dispatchKey_encodeR _ _ _ _

theorem nor : Statement (.nor) := dispatchKey_encodeR _ _ _ _

theorem andi : Statement (.andi) := dispatchKey_encodeI _ _ _ _ (by decide)

theorem ori : Statement (.ori) := dispatchKey_encodeI _ _ _ _ (by decide)

end Sys2Proof.Laws.TableKey
end

