-- ==== Sys2Proof/Laws/Step.lean ====
section
/-! SUPPORT. What one step can do, said once (spec/40_dispatch.md R91, spec/60_exceptions.md R181): the shape of every
completed instruction, every fault and every refusal, and the step on a fetched word. Later proofs take these cases and
never unfold `exec` or `step`. -/

namespace Sys2Proof.Machine

-- One proof at a time: the case splits below, run side by side, start more threads than a memory limit may allow.
set_option Elab.async false

/-! ### The meanings that branch, one equation per case -/

section Cases
variable {s : State} {rs rt : RegIdx}

theorem exec_div_zero (h : s.readGpr rt = 0#32) : exec (.div rs rt) s = .fault .divideByZero := by
  simp only [exec, execDiv, h, if_true]

theorem exec_div_overflow (ha : s.readGpr rs = 0x80000000#32) (hb : s.readGpr rt = 0xFFFFFFFF#32) :
    exec (.div rs rt) s = .fault .divideOverflow := by
  simp [exec, execDiv, ha, hb, quotientOverflows]

theorem exec_div_next (hb : s.readGpr rt ≠ 0#32)
    (ho : ¬ (s.readGpr rs = 0x80000000#32 ∧ s.readGpr rt = 0xFFFFFFFF#32)) :
    exec (.div rs rt) s = .next (((s.writeHi (divRemainder (s.readGpr rs) (s.readGpr rt))).writeLo
      (divQuotient (s.readGpr rs) (s.readGpr rt))).defaultAdvance) := by
  have ho' : quotientOverflows (s.readGpr rs) (s.readGpr rt) = false := by simpa [quotientOverflows] using ho
  simp [exec, execDiv, hb, ho', writeHiLoAndAdvance]

theorem exec_divu_zero (h : s.readGpr rt = 0#32) : exec (.divu rs rt) s = .fault .divideByZero := by
  simp only [exec, execDivu, h, if_true]

theorem exec_divu_next (hb : s.readGpr rt ≠ 0#32) :
    exec (.divu rs rt) s = .next (((s.writeHi (divuRemainder (s.readGpr rs) (s.readGpr rt))).writeLo
      (divuQuotient (s.readGpr rs) (s.readGpr rt))).defaultAdvance) := by
  simp [exec, execDivu, hb, writeHiLoAndAdvance]

theorem exec_beq_taken (imm : BitVec 16) (h : s.readGpr rs = s.readGpr rt) :
    exec (.beq rs rt imm) s = .next (s.redirect (branchTarget s.npc imm)) := by
  simp [exec, execBeq, branchIf, h]

theorem exec_beq_not_taken (imm : BitVec 16) (h : s.readGpr rs ≠ s.readGpr rt) :
    exec (.beq rs rt imm) s = .next s.defaultAdvance := by
  simp [exec, execBeq, branchIf, h]

theorem exec_bne_taken (imm : BitVec 16) (h : s.readGpr rs ≠ s.readGpr rt) :
    exec (.bne rs rt imm) s = .next (s.redirect (branchTarget s.npc imm)) := by
  simp [exec, execBne, branchIf, h]

theorem exec_bne_not_taken (imm : BitVec 16) (h : s.readGpr rs = s.readGpr rt) :
    exec (.bne rs rt imm) s = .next s.defaultAdvance := by
  simp [exec, execBne, branchIf, h]

/-- A step on one of the six unsettled words is refused with its key. -/
theorem step_of_unsettled {w : Word} (hf : s.fetch = .ok w) (hk : dispatchKey w ∈ unsettledKeys) :
    step s = .refused (.unsettledKey (dispatchKey w)) := by
  have h6 : dispatchKey w = 0x240#10 ∨ dispatchKey w = 0x250#10 ∨ dispatchKey w = 0x260#10 ∨
      dispatchKey w = 0x270#10 ∨ dispatchKey w = 0x00C#10 ∨ dispatchKey w = 0x00D#10 := by
    simpa [unsettledKeys, unsettledTable] using hk
  rcases h6 with h | h | h | h | h | h <;> simp only [step, hf, decode_of_key h, h] <;> rfl

end Cases

/-- The ways an instruction completes. -/
inductive Effect (i : Instr) (s : State) : State → Prop where
  /-- One general register written, then the default advance. -/
  | gpr (r : RegIdx) (v : Word) (hw : i.gprWrites = [r]) (hc : i.isControl = false) :
      Effect i s (s.writeGpr r v).defaultAdvance
  /-- `HI` and `LO` written, then the default advance. -/
  | hiLo (hi lo : Word) (hh : i.writesHi = true) (hl : i.writesLo = true) (hc : i.isControl = false) :
      Effect i s ((s.writeHi hi).writeLo lo).defaultAdvance
  /-- `HI` written, then the default advance. -/
  | hi (v : Word) (hh : i.writesHi = true) (hc : i.isControl = false) : Effect i s (s.writeHi v).defaultAdvance
  /-- `LO` written, then the default advance. -/
  | lo (v : Word) (hl : i.writesLo = true) (hc : i.isControl = false) : Effect i s (s.writeLo v).defaultAdvance
  /-- A branch not taken. -/
  | advance (hc : i.isControl = true) : Effect i s s.defaultAdvance
  /-- A branch taken, or a jump. -/
  | redirect (target : Word) (hc : i.isControl = true) : Effect i s (s.redirect target)
  /-- `jal`: the link written, then the jump. -/
  | link (r : RegIdx) (v target : Word) (hw : i.gprWrites = [r]) (hc : i.isControl = true) :
      Effect i s ((s.writeGpr r v).redirect target)

/-- Every completed instruction has one of these effects. -/
theorem effect_of_exec {i : Instr} {s t : State} (h : exec i s = .next t) : Effect i s t := by
  cases i with
  | add rd rs rt => cases h; exact .gpr _ _ rfl rfl
  | addu rd rs rt => cases h; exact .gpr _ _ rfl rfl
  | sub rd rs rt => cases h; exact .gpr _ _ rfl rfl
  | subu rd rs rt => cases h; exact .gpr _ _ rfl rfl
  | addi rt rs imm => cases h; exact .gpr _ _ rfl rfl
  | addiu rt rs imm => cases h; exact .gpr _ _ rfl rfl
  | mfhi rd => cases h; exact .gpr _ _ rfl rfl
  | mflo rd => cases h; exact .gpr _ _ rfl rfl
  | mthi rs => cases h; exact .hi _ rfl rfl
  | mtlo rs => cases h; exact .lo _ rfl rfl
  | mult rs rt => cases h; exact .hiLo _ _ rfl rfl rfl
  | div rs rt =>
    simp only [exec, execDiv] at h
    split at h
    · cases h
    · split at h
      · cases h
      · cases h; exact .hiLo _ _ rfl rfl rfl
  | divu rs rt =>
    simp only [exec, execDivu] at h
    split at h
    · cases h
    · cases h; exact .hiLo _ _ rfl rfl rfl
  | beq rs rt imm =>
    simp only [exec, execBeq, branchIf] at h
    split at h
    · cases h; exact .redirect _ rfl
    · cases h; exact .advance rfl
  | bne rs rt imm =>
    simp only [exec, execBne, branchIf] at h
    split at h
    · cases h; exact .redirect _ rfl
    · cases h; exact .advance rfl
  | j address => cases h; exact .redirect _ rfl
  | jal address => cases h; exact .link _ _ _ rfl rfl
  | jr rs => cases h; exact .redirect _ rfl
  | and => cases h
  | or => cases h
  | xor => cases h
  | nor => cases h
  | andi => cases h
  | ori => cases h

/-- Every fault of an instruction is one of the two of `div` or the one of `divu`. -/
theorem exec_fault_cases {i : Instr} {s : State} {r : Fault} (h : exec i s = .fault r) :
    (∃ rs rt, i = .div rs rt ∧ s.readGpr rt = 0#32 ∧ r = .divideByZero) ∨
    (∃ rs rt, i = .div rs rt ∧ s.readGpr rs = 0x80000000#32 ∧ s.readGpr rt = 0xFFFFFFFF#32 ∧
      r = .divideOverflow) ∨
    (∃ rs rt, i = .divu rs rt ∧ s.readGpr rt = 0#32 ∧ r = .divideByZero) := by
  cases i with
  | div rs rt =>
    simp only [exec, execDiv] at h
    split at h
    · next hz => cases h; exact .inl ⟨rs, rt, rfl, hz, rfl⟩
    · split at h
      · next ho =>
        cases h
        simp only [quotientOverflows, Bool.and_eq_true, beq_iff_eq] at ho
        exact .inr (.inl ⟨rs, rt, rfl, ho.1, ho.2, rfl⟩)
      · cases h
  | divu rs rt =>
    simp only [exec, execDivu] at h
    split at h
    · next hz => cases h; exact .inr (.inr ⟨rs, rt, rfl, hz, rfl⟩)
    · cases h
  | beq rs rt imm => simp only [exec, execBeq, branchIf] at h; split at h <;> cases h
  | bne rs rt imm => simp only [exec, execBne, branchIf] at h; split at h <;> cases h
  | add rd rs rt => cases h
  | addu rd rs rt => cases h
  | sub rd rs rt => cases h
  | subu rd rs rt => cases h
  | mult rs rt => cases h
  | jr rs => cases h
  | mfhi rd => cases h
  | mthi rs => cases h
  | mflo rd => cases h
  | mtlo rs => cases h
  | addi rt rs imm => cases h
  | addiu rt rs imm => cases h
  | j address => cases h
  | jal address => cases h
  | and => cases h
  | or => cases h
  | xor => cases h
  | nor => cases h
  | andi => cases h
  | ori => cases h

/-- An instruction is refused only for its unsettled key. -/
theorem exec_refused_cases {i : Instr} {s : State} {r : Refusal} (h : exec i s = .refused r) :
    r = .unsettledKey i.key ∧ i.key ∈ unsettledKeys := by
  cases i with
  | and => cases h; exact ⟨rfl, by decide⟩
  | or => cases h; exact ⟨rfl, by decide⟩
  | xor => cases h; exact ⟨rfl, by decide⟩
  | nor => cases h; exact ⟨rfl, by decide⟩
  | andi => cases h; exact ⟨rfl, by decide⟩
  | ori => cases h; exact ⟨rfl, by decide⟩
  | div rs rt => simp only [exec, execDiv] at h; repeat (split at h <;> try cases h)
  | divu rs rt => simp only [exec, execDivu] at h; split at h <;> cases h
  | beq rs rt imm => simp only [exec, execBeq, branchIf] at h; split at h <;> cases h
  | bne rs rt imm => simp only [exec, execBne, branchIf] at h; split at h <;> cases h
  | add rd rs rt => cases h
  | addu rd rs rt => cases h
  | sub rd rs rt => cases h
  | subu rd rs rt => cases h
  | mult rs rt => cases h
  | jr rs => cases h
  | mfhi rd => cases h
  | mthi rs => cases h
  | mflo rd => cases h
  | mtlo rs => cases h
  | addi rt rs imm => cases h
  | addiu rt rs imm => cases h
  | j address => cases h
  | jal address => cases h

/-! ### The step on a fetched word -/

/-- The accumulators do not enter the fetch. -/
@[simp] theorem State.writeHi_fetch (s : State) (v : Word) : (s.writeHi v).fetch = s.fetch := rfl

@[simp] theorem State.writeLo_fetch (s : State) (v : Word) : (s.writeLo v).fetch = s.fetch := rfl

theorem step_of_fetch_error {s : State} {why : NotEnabled} (h : s.fetch = .error why) :
    step s = .refused (.notEnabled why) := by
  simp only [step, h]

theorem step_of_instr {s : State} {w : Word} {i : Instr} (hf : s.fetch = .ok w) (hd : decode w = .instr i) :
    step s = exec i s := by
  simp only [step, hf, hd]

theorem step_of_unmapped {s : State} {w : Word} {k : Key} (hf : s.fetch = .ok w)
    (hd : decode w = .unmapped k) : step s = .next s.defaultAdvance := by
  simp only [step, hf, hd, execUnmapped]

/-- Every completed step fetched a word and either ran its instruction or advanced past it. -/
theorem step_next_cases {s t : State} (h : step s = .next t) :
    ∃ w, s.fetch = .ok w ∧
      ((∃ i, decode w = .instr i ∧ exec i s = .next t) ∨
        (∃ k, decode w = .unmapped k ∧ t = s.defaultAdvance)) := by
  cases hf : s.fetch with
  | error why => rw [step_of_fetch_error hf] at h; cases h
  | ok w =>
    refine ⟨w, rfl, ?_⟩
    cases hd : decode w with
    | instr i => exact .inl ⟨i, rfl, by rw [← step_of_instr hf hd, h]⟩
    | unmapped k => rw [step_of_unmapped hf hd] at h; cases h; exact .inr ⟨k, rfl, rfl⟩

/-- Every fault of a step is that of the instruction it fetched. -/
theorem step_fault_cases {s : State} {r : Fault} (h : step s = .fault r) :
    ∃ w i, s.fetch = .ok w ∧ decode w = .instr i ∧ exec i s = .fault r := by
  cases hf : s.fetch with
  | error why => rw [step_of_fetch_error hf] at h; cases h
  | ok w =>
    cases hd : decode w with
    | instr i => exact ⟨w, i, rfl, hd, by rw [← step_of_instr hf hd, h]⟩
    | unmapped k => rw [step_of_unmapped hf hd] at h; cases h

/-- Every refusal of a step is an unsettled key it fetched, or says why no step was enabled. -/
theorem step_refused_cases {s : State} {r : Refusal} (h : step s = .refused r) :
    (∃ w, s.fetch = .ok w ∧ r = .unsettledKey (dispatchKey w) ∧ dispatchKey w ∈ unsettledKeys) ∨
    (∃ why, s.fetch = .error why ∧ r = .notEnabled why) := by
  cases hf : s.fetch with
  | error why => rw [step_of_fetch_error hf] at h; cases h; exact .inr ⟨why, rfl, rfl⟩
  | ok w =>
    cases hd : decode w with
    | instr i =>
      rw [step_of_instr hf hd] at h
      obtain ⟨hr, hk⟩ := exec_refused_cases h
      exact .inl ⟨w, rfl, by rw [hr, dispatchKey_of_decode hd], by rw [dispatchKey_of_decode hd]; exact hk⟩
    | unmapped k => rw [step_of_unmapped hf hd] at h; cases h

end Sys2Proof.Machine
end

