-- ==== Sys2Proof/Laws/Run.lean ====
section
/-! SUPPORT. Run control (spec/40_dispatch.md R98, R99): one unfolding lemma per case, and how steps compose. -/

namespace Sys2Proof.Machine.State

theorem engineStep_of_next {s t : State} (h : step s = .next t) : s.engineStep = t := by
  simp only [engineStep, h, afterOutcome_next]

theorem engineStep_of_fault {s : State} {r : Fault} (h : step s = .fault r) :
    s.engineStep = s.recordStop (.fault r) := by
  simp only [engineStep, h, afterOutcome_fault]

/-- What one step of the engine leaves: the next state, or the same state with a stop recorded. -/
theorem engineStep_cases {s : State} {w : Word} (hf : s.fetch = .ok w) :
    (∃ t, step s = .next t ∧ s.engineStep = t) ∨
    (∃ r, step s = .fault r ∧ s.engineStep = s.recordStop (.fault r)) ∨
    (step s = .refused (.unsettledKey (dispatchKey w)) ∧ dispatchKey w ∈ unsettledKeys ∧
      s.engineStep = s.recordStop (.refuse (dispatchKey w))) := by
  cases h : step s with
  | next t => exact .inl ⟨t, rfl, engineStep_of_next h⟩
  | fault r => exact .inr (.inl ⟨r, rfl, engineStep_of_fault h⟩)
  | refused r =>
    obtain ⟨w', hf', rfl, hk⟩ | ⟨why, he, -⟩ := step_refused_cases h
    · rw [hf] at hf'
      cases hf'
      exact .inr (.inr ⟨rfl, hk, by simp only [engineStep, h, afterOutcome_unsettled]⟩)
    · rw [hf] at he
      cases he

/-- `stepProgram()` is one step where one is enabled (R99). -/
@[simp] theorem call_stepProgram_default (s : State) :
    s.call .stepProgram = (.returned, if s.enabled then s.engineStep else s) := rfl

@[simp] theorem stepProgram_zero (s : State) : s.stepProgram 0 = s := rfl

theorem stepProgram_succ_of_enabled {s : State} (n : Nat) (h : s.enabled = true) :
    s.stepProgram (n + 1) = s.engineStep.stepProgram n := by
  simp only [stepProgram, h, if_true]

theorem stepProgram_of_not_enabled {s : State} (n : Nat) (h : s.enabled = false) : s.stepProgram n = s := by
  cases n with
  | zero => rfl
  | succ n => simp [stepProgram, h]

theorem runProgram_succ_of_enabled {s : State} (fuel : Nat) (h : s.enabled = true) :
    s.runProgram (fuel + 1) = s.engineStep.runProgram fuel := by
  simp only [runProgram, h, if_true]

theorem runProgram_zero_of_enabled {s : State} (h : s.enabled = true) : s.runProgram 0 = none := by
  simp only [runProgram, h, if_true]

theorem runProgram_of_not_enabled {s : State} (fuel : Nat) (h : s.enabled = false) :
    s.runProgram fuel = some s := by
  cases fuel <;> simp [runProgram, h]

/-- Steps compose. -/
theorem stepProgram_add (s : State) (m n : Nat) : s.stepProgram (m + n) = (s.stepProgram m).stepProgram n := by
  induction m generalizing s with
  | zero => simp
  | succ m ih =>
    cases h : s.enabled with
    | true =>
      rw [Nat.add_right_comm, stepProgram_succ_of_enabled _ h, stepProgram_succ_of_enabled _ h, ih]
    | false => simp only [stepProgram_of_not_enabled _ h]

/-- What every step of the engine keeps, every number of steps keeps. -/
theorem stepProgram_keeps {P : State → Prop} (hstep : ∀ s, s.enabled = true → P s → P s.engineStep) (n : Nat)
    {s : State} (h : P s) : P (s.stepProgram n) := by
  induction n generalizing s with
  | zero => exact h
  | succ n ih =>
    cases he : s.enabled with
    | true => rw [stepProgram_succ_of_enabled _ he]; exact ih (hstep s he h)
    | false => rw [stepProgram_of_not_enabled _ he]; exact h

end Sys2Proof.Machine.State
end

