-- ==== Sys2Proof/Machine/Assembly.lean ====
section
/-! DEFINITION. Assembler text (spec/30_encoding.md R77): register names `$n`, operands destination first, immediates and
branch offsets as signed numbers, jump targets as the 26-bit field. It never affects behaviour. -/

namespace Sys2Proof.Machine

/-- `$n` (R20, R77). -/
def regText (r : RegIdx) : String := "$" ++ toString r.val

/-- A mnemonic and its operands. -/
def asmLine (mnemonic : String) (operands : List String) : String :=
  mnemonic ++ " " ++ ", ".intercalate operands

/-- The assembler text of an instruction (R77). The spec gives the unsettled instructions no operands. -/
def assembly : Instr → String
  | .add rd rs rt => asmLine "add" [regText rd, regText rs, regText rt]
  | .addu rd rs rt => asmLine "addu" [regText rd, regText rs, regText rt]
  | .sub rd rs rt => asmLine "sub" [regText rd, regText rs, regText rt]
  | .subu rd rs rt => asmLine "subu" [regText rd, regText rs, regText rt]
  | .mult rs rt => asmLine "mult" [regText rs, regText rt]
  | .div rs rt => asmLine "div" [regText rs, regText rt]
  | .divu rs rt => asmLine "divu" [regText rs, regText rt]
  | .jr rs => asmLine "jr" [regText rs]
  | .mfhi rd => asmLine "mfhi" [regText rd]
  | .mthi rs => asmLine "mthi" [regText rs]
  | .mflo rd => asmLine "mflo" [regText rd]
  | .mtlo rs => asmLine "mtlo" [regText rs]
  | .addi rt rs imm => asmLine "addi" [regText rt, regText rs, toString imm.toInt]
  | .addiu rt rs imm => asmLine "addiu" [regText rt, regText rs, toString imm.toInt]
  | .beq rs rt imm => asmLine "beq" [regText rs, regText rt, toString imm.toInt]
  | .bne rs rt imm => asmLine "bne" [regText rs, regText rt, toString imm.toInt]
  | .j address => asmLine "j" [toString address.toNat]
  | .jal address => asmLine "jal" [toString address.toNat]
  | .and => "and"
  | .or => "or"
  | .xor => "xor"
  | .nor => "nor"
  | .andi => "andi"
  | .ori => "ori"

end Sys2Proof.Machine
end

