-- ==== Sys2Proof/Machine/Flags.lean ====
section
/-! DEFINITION. The block has no status flags, condition codes or predicate registers, and no handler writes any
(spec/10_state.md R28): there is no flag computation to define. Signed overflow of `add`, `addi` and `sub` wraps and is
recorded nowhere (spec/92_eei_decisions.md D2). -/
end

