-- ==== Sys2Proof/Tests/Slice0.lean ====
section
/-! SUPPORT. The model's own tests. Expected values come from spec/ (95_test_vectors.md unless a comment names another
file), never from the model. Part 1: the checks of WellFormed.lean on terms they refuse. Part 2: a word of every
instruction written out from its encoding. Part 3: single steps. Part 4: for every obligation with hypotheses, a concrete
state and operands that meet them, clause by clause. -/

namespace Sys2Proof.Tests

open Sys2Proof.Machine

/-! ### Helpers -/

/-- The reset state with these registers and this pair. -/
def base (pc npc : Word) (l : List (RegIdx × Word)) : State :=
  l.foldl (fun s p => s.writeGpr p.1 p.2) { State.reset with pc := pc, npc := npc }

/-- That state with a Program that ends in `w`, the word at its fetch index; the words before it are 0. -/
def stateAt (pc npc : Word) (w : Word) (l : List (RegIdx × Word)) : State :=
  { base pc npc l with prog := some (Program.put [] (fetchIndex npc).toNat w) }

/-- The state of 95_test_vectors.md section 2 before a step: `PC = 8`, `nPC = 12`. -/
def at2 (w : Word) (l : List (RegIdx × Word)) : State := stateAt 8#32 12#32 w l

/-- That state with the accumulators set. -/
def at2HiLo (hi lo : Word) (w : Word) (l : List (RegIdx × Word)) : State := { at2 w l with hi := hi, lo := lo }

/-- What a completed step shows; nothing where the step does not complete. -/
def afterStep {α : Type} (f : State → α) (s : State) : Option α :=
  match step s with
  | .next t => some (f t)
  | _ => none

/-- A general register and the pair. -/
def gprAndPair (r : RegIdx) (s : State) : Word × Word × Word := (s.readGpr r, s.pc, s.npc)

/-- The accumulators and the pair. -/
def hiLoAndPair (s : State) : Word × Word × Word × Word := (s.hi, s.lo, s.pc, s.npc)

/-- The pair and the next fetch index. -/
def pairAndIndex (s : State) : Word × Word × Int := (s.pc, s.npc, s.index)

/-! ### Part 1: what the block refuses from its host -/

/-- R203, D11: a sequence of `2^29` words is too long. -/
theorem test_program_too_long_is_ill_formed (p : Program) (h : p.length = 2 ^ 29) : p.wf = false := by
  simp [Program.wf, Config.nMax, h]

/-- Such a sequence exists. -/
theorem test_program_too_long_exists : ∃ p : Program, p.length = 2 ^ 29 :=
  ⟨List.replicate (2 ^ 29) 0#32, List.length_replicate⟩

theorem test_longest_program_is_well_formed (p : Program) (h : p.length = 2 ^ 29 - 1) : p.wf = true := by
  simp [Program.wf, Config.nMax, h]

theorem test_empty_program_is_well_formed : Program.wf [] = true := by decide

/-- 95_test_vectors.md 2.7: `setGPR(32, 1)` and `gprValue(-1)` are rejected. -/
theorem test_index_32_names_no_register : hostReg? 32 = none := by decide

theorem test_index_minus_1_names_no_register : hostReg? (-1) = none := by decide

theorem test_index_31_names_the_last_register : hostReg? 31 = some 31 := by decide

theorem test_setGPR_32_changes_nothing : State.reset.call (.setGPR 32 1#32) = (.rejected, State.reset) := by decide

theorem test_setGPR_0_is_read_back : ((State.reset.call (.setGPR 0 7#32)).2.call (.gprValue 0)).1 = .value 7 := by decide

/-- R99: `stepProgram()` is `stepProgram(1)`. -/
theorem test_stepProgram_default_is_one_step :
    ((at2 0x20010003#32 []).call .stepProgram).2 = (at2 0x20010003#32 []).engineStep := by decide

theorem test_reset_of_a_stopped_block :
    ((at2 0x00211025#32 [(1, 5#32)]).engineStep.call .reset).2 =
      { State.reset with prog := some [0#32, 0#32, 0x00211025#32] } := by decide

/-! ### Part 2: every instruction's word, bit by bit (R61, R62, R69, R73; shamt and other unread fields set to ones) -/

theorem test_decode_add : decode 0b000000_00101_00100_00110_00000_100000#32 = .instr (.add 6 5 4) := by decide

theorem test_decode_addu : decode 0b000000_00001_00010_00011_11111_100001#32 = .instr (.addu 3 1 2) := by decide

theorem test_decode_sub : decode 0b000000_10000_00010_00011_00000_100010#32 = .instr (.sub 3 16 2) := by decide

theorem test_decode_subu : decode 0b000000_00001_10001_11111_00000_100011#32 = .instr (.subu 31 1 17) := by decide

theorem test_decode_mult : decode 0b000000_00100_00101_11111_11111_011000#32 = .instr (.mult 4 5) := by decide

theorem test_decode_div : decode 0b000000_00100_00101_00000_00000_011010#32 = .instr (.div 4 5) := by decide

theorem test_decode_divu : decode 0b000000_00001_00010_00000_00000_011011#32 = .instr (.divu 1 2) := by decide

theorem test_decode_jr : decode 0b000000_11111_00011_00100_00101_001000#32 = .instr (.jr 31) := by decide

theorem test_decode_mfhi : decode 0b000000_00011_00100_00111_00000_010000#32 = .instr (.mfhi 7) := by decide

theorem test_decode_mthi : decode 0b000000_00011_11111_11111_11111_010001#32 = .instr (.mthi 3) := by decide

theorem test_decode_mflo : decode 0b000000_11111_11111_00110_11111_010010#32 = .instr (.mflo 6) := by decide

theorem test_decode_mtlo : decode 0b000000_00011_00000_00000_00000_010011#32 = .instr (.mtlo 3) := by decide

theorem test_decode_addi : decode 0b001000_00001_00010_1000000000000000#32 = .instr (.addi 2 1 0x8000#16) := by decide

theorem test_decode_addiu : decode 0b001001_00001_00010_1111111111111110#32 = .instr (.addiu 2 1 0xFFFE#16) := by decide

theorem test_decode_beq : decode 0b000100_00001_00010_0000000000000011#32 = .instr (.beq 1 2 3#16) := by decide

theorem test_decode_bne : decode 0b000101_00001_00000_1111111111111101#32 = .instr (.bne 1 0 0xFFFD#16) := by decide

theorem test_decode_j : decode 0b000010_00000000000000000000001000#32 = .instr (.j 8#26) := by decide

theorem test_decode_jal : decode 0b000011_10000000000000000000000101#32 = .instr (.jal 0x2000005#26) := by decide

theorem test_decode_and : decode 0b000000_00101_00100_00110_00000_100100#32 = .instr (.and) := by decide

theorem test_decode_or : decode 0b000000_00001_00001_00010_00000_100101#32 = .instr (.or) := by decide

theorem test_decode_xor : decode 0b000000_11111_11111_11111_11111_100110#32 = .instr (.xor) := by decide

theorem test_decode_nor : decode 0b000000_00101_00100_00110_00000_100111#32 = .instr (.nor) := by decide

theorem test_decode_andi : decode 0b001100_00001_00001_0000000000000001#32 = .instr (.andi) := by decide

theorem test_decode_ori : decode 0b001101_00001_00001_0000000000000001#32 = .instr (.ori) := by decide

/-- 2.1 and 2.6: words with no handler. -/
theorem test_decode_unmapped : [0x00000000#32, 0xFFFFFFFF#32, 0x00850019#32, 0x8C020000#32, 0x0000000C#32, 0x40000000#32,
      0x00000001#32, 0x3C010005#32, 0x38210001#32].map decode =
    [0x000#10, 0x03F#10, 0x190#10, 0x023#10, 0x0C0#10, 0x010#10, 0x010#10, 0x00F#10, 0x00E#10].map .unmapped := by decide

/-- 2.1, the row of `0x1420FFFD`. -/
theorem test_fields_of_a_word : instructionView 0x1420FFFD#32 =
    { opcode := 5#6, rs := 1, rt := 0, rd := 31, shamt := 31#5, funct := 0x3D#6, imm := 0xFFFD#16
      address := 0x020FFFD#26 } := by decide

/-- 2.2. -/
theorem test_fetch_index : [4#32, 7#32, 8#32, 0x10#32, 3#32, 0#32, 0x80000000#32, 0xFFFFFFFC#32].map fetchIndex =
    [0, 0, 1, 3, -1, -1, 536870911, 1073741822] := by decide

/-- The encoder, against words of 95_test_vectors.md. -/
theorem test_encode : [Instr.add 6 5 4, .addi 4 4 12#16, .jr 31, .jal 5#26, .bne 1 0 0xFFFD#16].map encode =
    [0x00A43020#32, 0x2084000C#32, 0x03E00008#32, 0x0C000005#32, 0x1420FFFD#32] := by decide

/-- R77. -/
theorem test_assembly : [Instr.add 6 5 4, .addi 1 1 0xFFFF#16, .mult 4 5, .mfhi 7, .jr 31, .bne 1 0 0xFFFD#16, .jal 5#26].map
      assembly =
    ["add $6, $5, $4", "addi $1, $1, -1", "mult $4, $5", "mfhi $7", "jr $31", "bne $1, $0, -3", "jal 5"] := by decide

/-! ### Part 3: single steps -/

/-! 2.3: add and subtract. -/

theorem test_add_same_register : afterStep (gprAndPair 5) (at2 0x00A52820#32 [(5, 0x40000000#32)]) = some (0x80000000#32, 12#32, 16#32) := by decide

theorem test_add_keeps_register_0 : afterStep (gprAndPair 0) (at2 0x002201E0#32 [(1, 2#32), (2, 3#32)]) = some (5#32, 12#32, 16#32) := by decide

theorem test_addu : afterStep (gprAndPair 3) (at2 0x00221821#32 [(1, 0x80000000#32), (2, 0x80000000#32)]) = some (0#32, 12#32, 16#32) := by decide

theorem test_sub_order : afterStep (gprAndPair 3) (at2 0x00221822#32 [(1, 3#32), (2, 5#32)]) = some (0xFFFFFFFE#32, 12#32, 16#32) := by decide

theorem test_sub_wraps : afterStep (gprAndPair 3) (at2 0x00221822#32 [(1, 0x80000000#32), (2, 1#32)]) = some (0x7FFFFFFF#32, 12#32, 16#32) := by decide

theorem test_subu : afterStep (gprAndPair 3) (at2 0x00221823#32 [(2, 0xFFFFFFFF#32)]) = some (1#32, 12#32, 16#32) := by decide

theorem test_addi_sign_extends : afterStep (gprAndPair 2) (at2 0x20228000#32 []) = some (0xFFFF8000#32, 12#32, 16#32) := by decide

theorem test_addi_wraps : afterStep (gprAndPair 1) (at2 0x20210001#32 [(1, 0x7FFFFFFF#32)]) = some (0x80000000#32, 12#32, 16#32) := by decide

theorem test_addiu_sign_extends : afterStep (gprAndPair 2) (at2 0x2422FFFF#32 []) = some (0xFFFFFFFF#32, 12#32, 16#32) := by decide

theorem test_addiu_wraps : afterStep (gprAndPair 2) (at2 0x24220001#32 [(1, 0xFFFFFFFF#32)]) = some (0#32, 12#32, 16#32) := by decide

/-! 2.4: multiply, divide and moves. -/

theorem test_mult_sign_fill : afterStep hiLoAndPair (at2HiLo 0x11#32 0x22#32 0x00220018#32 [(1, 0x80000000#32), (2, 0xFFFFFFFF#32)]) = some (0xFFFFFFFF#32, 0x80000000#32, 12#32, 16#32) := by decide

theorem test_mult_negative : afterStep hiLoAndPair (at2HiLo 0x11#32 0x22#32 0x00850018#32 [(4, 7#32), (5, 0xFFFFFFFD#32)]) = some (0xFFFFFFFF#32, 0xFFFFFFEB#32, 12#32, 16#32) := by decide

theorem test_div_negative_dividend : afterStep hiLoAndPair (at2HiLo 0x11#32 0x22#32 0x0022001A#32 [(1, 0xFFFFFFF9#32), (2, 3#32)]) = some (0xFFFFFFFF#32, 0xFFFFFFFE#32, 12#32, 16#32) := by decide

theorem test_divu_no_overflow : afterStep hiLoAndPair (at2HiLo 0x11#32 0x22#32 0x0022001B#32 [(1, 0x80000000#32), (2, 0xFFFFFFFF#32)]) = some (0x80000000#32, 0#32, 12#32, 16#32) := by decide

theorem test_mthi : afterStep hiLoAndPair (at2HiLo 1#32 2#32 0x00600011#32 [(3, 0xDEADBEEF#32)]) = some (0xDEADBEEF#32, 2#32, 12#32, 16#32) := by decide

theorem test_mtlo : afterStep hiLoAndPair (at2HiLo 1#32 2#32 0x00600013#32 [(3, 5#32)]) = some (1#32, 5#32, 12#32, 16#32) := by decide

theorem test_mfhi : afterStep (gprAndPair 7) (at2HiLo 0xAB#32 0#32 0x00643810#32 [(3, 9#32)]) = some (0xAB#32, 12#32, 16#32) := by decide

theorem test_mflo_keeps_register_0 : afterStep (gprAndPair 0) (at2HiLo 0#32 0xFFFFFFFE#32 0x00000012#32 []) = some (0xFFFFFFFE#32, 12#32, 16#32) := by decide

theorem test_div_overflow_stops : (at2HiLo 0x11#32 0x22#32 0x0022001A#32 [(1, 0x80000000#32), (2, 0xFFFFFFFF#32)]).engineStep =
    { at2HiLo 0x11#32 0x22#32 0x0022001A#32 [(1, 0x80000000#32), (2, 0xFFFFFFFF#32)] with stop := some (.fault .divideOverflow) } := by decide

theorem test_divu_zero_stops : (at2HiLo 0x11#32 0x22#32 0x0022001B#32 [(1, 5#32)]).engineStep =
    { at2HiLo 0x11#32 0x22#32 0x0022001B#32 [(1, 5#32)] with stop := some (.fault .divideByZero) } := by decide

/-! 2.5: branches and jumps. -/

theorem test_beq_taken : afterStep pairAndIndex (stateAt 8#32 12#32 0x10220003#32 [(1, 5#32), (2, 5#32)]) = some (12#32, 28#32, 6) := by
  decide

theorem test_beq_not_taken : afterStep pairAndIndex (stateAt 8#32 12#32 0x10220003#32 [(1, 5#32), (2, 6#32)]) = some (12#32, 16#32, 3) := by
  decide

theorem test_bne_taken : afterStep pairAndIndex (stateAt 12#32 16#32 0x1420FFFD#32 [(1, 2#32)]) = some (16#32, 8#32, 1) := by
  decide

theorem test_bne_not_taken : afterStep pairAndIndex (stateAt 12#32 16#32 0x14210005#32 [(1, 2#32)]) = some (16#32, 20#32, 4) := by
  decide

theorem test_j : afterStep pairAndIndex (stateAt 16#32 20#32 0x08000008#32 []) = some (20#32, 36#32, 8) := by
  decide

theorem test_j_far : afterStep pairAndIndex (stateAt 16#32 20#32 0x0BFFFFFF#32 []) = some (20#32, 0x10000000#32, 67108863) := by
  decide

theorem test_jr_unaligned : afterStep pairAndIndex (stateAt 28#32 32#32 0x00200008#32 [(1, 5#32)]) = some (32#32, 9#32, 1) := by
  decide

theorem test_jr_wraps : afterStep pairAndIndex (stateAt 28#32 32#32 0x00200008#32 [(1, 0xFFFFFFFC#32)]) = some (32#32, 0#32, -1) := by
  decide

theorem test_jal_after_a_transfer : afterStep (gprAndPair 31) (stateAt 20#32 44#32 0x0C000005#32 []) =
    some (24#32, 44#32, 24#32) := by decide

theorem test_jal_after_reset : afterStep (gprAndPair 31) (stateAt 4#32 4#32 0x0C000005#32 []) = some (8#32, 4#32, 24#32) := by
  decide

/-! 2.6: words without a handler. -/

theorem test_unmapped_multu_only_advances :
    afterStep hiLoAndPair (at2HiLo 1#32 2#32 0x00850019#32 [(4, 5#32), (5, 6#32)]) = some (1#32, 2#32, 12#32, 16#32) := by decide

theorem test_unmapped_lui_only_advances : afterStep (gprAndPair 1) (at2 0x3C010005#32 [(1, 3#32)]) =
    some (3#32, 12#32, 16#32) := by decide

theorem test_and_is_refused : (at2HiLo 0x11#32 0x22#32 0x00A43024#32 [(1, 3#32)]).engineStep =
    { at2HiLo 0x11#32 0x22#32 0x00A43024#32 [(1, 3#32)] with stop := some (.refuse 0x240#10) } := by decide

theorem test_or_is_refused : (at2HiLo 0x11#32 0x22#32 0x00211025#32 [(1, 3#32)]).engineStep =
    { at2HiLo 0x11#32 0x22#32 0x00211025#32 [(1, 3#32)] with stop := some (.refuse 0x250#10) } := by decide

theorem test_xor_is_refused : (at2HiLo 0x11#32 0x22#32 0x00A43026#32 [(1, 3#32)]).engineStep =
    { at2HiLo 0x11#32 0x22#32 0x00A43026#32 [(1, 3#32)] with stop := some (.refuse 0x260#10) } := by decide

theorem test_nor_is_refused : (at2HiLo 0x11#32 0x22#32 0x00A43027#32 [(1, 3#32)]).engineStep =
    { at2HiLo 0x11#32 0x22#32 0x00A43027#32 [(1, 3#32)] with stop := some (.refuse 0x270#10) } := by decide

theorem test_andi_is_refused : (at2HiLo 0x11#32 0x22#32 0x30210001#32 [(1, 3#32)]).engineStep =
    { at2HiLo 0x11#32 0x22#32 0x30210001#32 [(1, 3#32)] with stop := some (.refuse 0x00C#10) } := by decide

theorem test_ori_is_refused : (at2HiLo 0x11#32 0x22#32 0x34210001#32 [(1, 3#32)]).engineStep =
    { at2HiLo 0x11#32 0x22#32 0x34210001#32 [(1, 3#32)] with stop := some (.refuse 0x00D#10) } := by decide

/-- A host places a word where the next step fetches it, at reset and in a state that no Program can be fetched from. -/
theorem test_withFetchWord : (State.reset.withFetchWord 32 0x00A43020).fetch = .ok 0x00A43020#32 ∧
    ((base 8#32 0#32 []).withFetchWord 32 0x20010003).fetch = .ok 0x20010003#32 ∧
    decodeTableWord 32 0x00A43020 = some (.add 6 5 4) := by decide

/-! ### Part 4: witnesses, one per obligation with hypotheses -/

theorem witness_AddWritesWrappedSum : 0x002201E0#32 &&& 0xFC00003F#32 = 0x20#32 := by decide

theorem witness_AdduWritesWrappedSum : 0x00221821#32 &&& 0xFC00003F#32 = 0x21#32 := by decide

theorem witness_SubWritesWrappedDifference : 0x00221822#32 &&& 0xFC00003F#32 = 0x22#32 := by decide

theorem witness_SubuWritesWrappedDifference : 0x00221823#32 &&& 0xFC00003F#32 = 0x23#32 := by decide

theorem witness_AddiWritesWrappedSum : 0x2084000C#32 &&& 0xFC000000#32 = 0x20000000#32 := by decide

theorem witness_AddiuWritesWrappedSum : 0x2422FFFF#32 &&& 0xFC000000#32 = 0x24000000#32 := by decide

theorem witness_MfhiCopiesHi : 0x00643810#32 &&& 0xFC00003F#32 = 0x10#32 := by decide

theorem witness_MthiWritesHi : 0x00600011#32 &&& 0xFC00003F#32 = 0x11#32 := by decide

theorem witness_MfloCopiesLo : 0x00000012#32 &&& 0xFC00003F#32 = 0x12#32 := by decide

theorem witness_MtloWritesLo : 0x00600013#32 &&& 0xFC00003F#32 = 0x13#32 := by decide

theorem witness_JumpSetsRegionTarget : 0x0BFFFFFF#32 &&& 0xFC000000#32 = 0x08000000#32 := by decide

theorem witness_JalLinksOldPcPlusFourAndJumps : 0x0C000005#32 &&& 0xFC000000#32 = 0x0C000000#32 := by decide

theorem witness_JrJumpsToPlainAddress : 0x00232148#32 &&& 0xFC00003F#32 = 0x08#32 := by decide

/-- Products at both ends of the range that fits. -/
theorem witness_MultWritesSignFilledProduct : 0x00220018#32 &&& 0xFC00003F#32 = 0x18#32 ∧
    (∀ s ∈ [base 8#32 12#32 [(1, 0x80000000#32), (2, 1#32)], base 8#32 12#32 [(1, 0x7FFFFFFF#32), (2, 1#32)]],
      -(2 ^ 31 : Int) ≤ (s.readGpr 1).toInt * (s.readGpr 2).toInt ∧
        (s.readGpr 1).toInt * (s.readGpr 2).toInt < 2 ^ 31) := by decide

/-- The zero divisor, the overflowing pair, and next to each a pair that divides. -/
theorem witness_DivWritesTruncatedQuotientOrFaults : 0x0022001A#32 &&& 0xFC00003F#32 = 0x1A#32 ∧
    (base 8#32 12#32 [(1, 0x80000000#32)]).readGpr 2 = 0#32 ∧
    ((base 8#32 12#32 [(1, 0x80000000#32), (2, 0xFFFFFFFF#32)]).readGpr 1 = 0x80000000#32 ∧
      (base 8#32 12#32 [(1, 0x80000000#32), (2, 0xFFFFFFFF#32)]).readGpr 2 = 0xFFFFFFFF#32) ∧
    ∀ s ∈ [base 8#32 12#32 [(1, 0x80000000#32), (2, 1#32)], base 8#32 12#32 [(1, 0x80000001#32), (2, 0xFFFFFFFF#32)]],
      s.readGpr 2 ≠ 0#32 ∧ ¬ (s.readGpr 1 = 0x80000000#32 ∧ s.readGpr 2 = 0xFFFFFFFF#32) := by decide

theorem witness_DivuWritesQuotientOrFaults : 0x0022001B#32 &&& 0xFC00003F#32 = 0x1B#32 ∧
    (base 8#32 12#32 [(1, 5#32)]).readGpr 2 = 0#32 ∧ (base 8#32 12#32 [(1, 5#32), (2, 1#32)]).readGpr 2 ≠ 0#32 := by decide

theorem witness_BeqBranchesWhenEqual : 0x10220003#32 &&& 0xFC000000#32 = 0x10000000#32 ∧
    (base 8#32 12#32 [(1, 5#32), (2, 5#32)]).readGpr 1 = (base 8#32 12#32 [(1, 5#32), (2, 5#32)]).readGpr 2 ∧
    (base 8#32 12#32 [(1, 5#32)]).readGpr 1 ≠ (base 8#32 12#32 [(1, 5#32)]).readGpr 2 := by decide

theorem witness_BneBranchesWhenNotEqual : 0x1420FFFD#32 &&& 0xFC000000#32 = 0x14000000#32 ∧
    (base 8#32 12#32 [(1, 5#32)]).readGpr 1 ≠ (base 8#32 12#32 [(1, 5#32)]).readGpr 2 ∧
    (base 8#32 12#32 [(1, 5#32), (2, 5#32)]).readGpr 1 = (base 8#32 12#32 [(1, 5#32), (2, 5#32)]).readGpr 2 := by decide

theorem witness_UnsettledWordsAreRefused :
    ([0x00A43024#32, 0x00A43025#32, 0x00A43026#32, 0x00A43027#32].map (· &&& 0xFC00003F#32) =
        [0x24#32, 0x25#32, 0x26#32, 0x27#32] ∧
      0x30210001#32 &&& 0xFC000000#32 = 0x30000000#32 ∧ 0x34210001#32 &&& 0xFC000000#32 = 0x34000000#32) ∧
    [0x00A43024#32, 0x00A43025#32, 0x00A43026#32, 0x00A43027#32, 0x30210001#32, 0x34210001#32].all (fun w => decide
      ((at2 w []).fetch = .ok w ∧
        dispatchKey w ∈ [0x240#10, 0x250#10, 0x260#10, 0x270#10, 0x00C#10, 0x00D#10])) = true := by decide

/-- The first and the last key, and the keys on either side of a mapped one. -/
theorem witness_UnmappedWordOnlyAdvances :
    [0x00000000#32, 0x0000003F#32, 0x0000001F#32, 0x04000000#32, 0x18000000#32].all (fun w => decide
    ((at2 w []).fetch = .ok w ∧
    dispatchKey w ∉ [0x200#10, 0x210#10, 0x220#10, 0x230#10, 0x180#10, 0x1A0#10, 0x1B0#10, 0x080#10, 0x100#10,
      0x110#10, 0x120#10, 0x130#10, 0x008#10, 0x009#10, 0x004#10, 0x005#10, 0x002#10, 0x003#10] ∧
    dispatchKey w ∉ [0x240#10, 0x250#10, 0x260#10, 0x270#10, 0x00C#10, 0x00D#10])) = true := by decide

theorem witness_CollidingKeysAreUnmapped :
    ((instructionView 1#32).opcode = 0#6 ∧ (instructionView 1#32).funct = 1#6) ∧
    ((instructionView 2#32).opcode = 0#6 ∧ (instructionView 2#32).funct = 2#6) ∧
    ((instructionView 3#32).opcode = 0#6 ∧ (instructionView 3#32).funct = 3#6) ∧
    (instructionView 0x40000000#32).opcode = 0x10#6 ∧ (instructionView 0x80000000#32).opcode = 0x20#6 ∧
    (instructionView 0xC0000000#32).opcode = 0x30#6 ∧
    [1#32, 2#32, 3#32, 0x40000000#32, 0x80000000#32, 0xC0000000#32].all (fun w => decide
      ((dispatchKey w = 16#10 ∨ dispatchKey w = 32#10 ∨ dispatchKey w = 48#10) ∧ (at2 w []).fetch = .ok w)) = true := by decide

theorem witness_StepRunsTheDecodedInstruction :
    ((at2 0x00A43020#32 []).prog = some [0#32, 0#32, 0x00A43020#32] ∧ (at2 0x00A43020#32 []).stop = none ∧
      ((at2 0x00A43020#32 []).npc.toNat / 4 : Int) - 1 = (2 : Nat) ∧
      [0#32, 0#32, 0x00A43020#32][2]? = some 0x00A43020#32 ∧ decode 0x00A43020#32 = .instr (.add 6 5 4)) ∧
    (at2 0x8C020000#32 []).prog = some [0#32, 0#32, 0x8C020000#32] ∧ (at2 0x8C020000#32 []).stop = none ∧
      [0#32, 0#32, 0x8C020000#32][2]? = some 0x8C020000#32 ∧ decode 0x8C020000#32 = .unmapped 0x023#10 := by decide

/-- Enabled at the last word, not enabled one past it, with no Program, and where `nPC` is 3. -/
theorem witness_StepIsEnabledExactlyInBounds : (at2 0#32 []).enabled = true ∧
    { at2 0#32 [] with npc := 16#32 }.enabled = false ∧ { at2 0#32 [] with npc := 3#32 }.enabled = false ∧
    State.reset.prog = none := by decide

/-- One enabled state for each outcome, and one state for each reason that none is. -/
theorem witness_EnabledStepEndsInOneOfThreeWays :
    [0x00A43020#32, 0x0020001A#32, 0x00A43024#32].all (fun w => (at2 w []).enabled) = true ∧ State.reset.enabled = false ∧
    { at2 0#32 [] with npc := 16#32 }.enabled = false ∧
    (at2 0x0020001A#32 []).engineStep.enabled = false ∧ (at2 0x00A43024#32 []).engineStep.enabled = false := by decide

theorem witness_OnlyDivisionFaults : step (at2 0x0020001A#32 []) = .fault .divideByZero ∧
    step (at2 0x0020001B#32 []) = .fault .divideByZero ∧
    step (at2 0x0022001A#32 [(1, 0x80000000#32), (2, 0xFFFFFFFF#32)]) = .fault .divideOverflow := ⟨rfl, rfl, rfl⟩

theorem witness_FaultEntryIsPrecise :
    step (at2 0x0022001A#32 [(1, 0x80000000#32), (2, 0xFFFFFFFF#32)]) = .fault .divideOverflow := rfl

/-- Each kind of recorded stop, an accepted load, a rejected load and a call that clears nothing. -/
theorem witness_RecordedStopStaysUntilResetOrLoad :
    (at2 0x0020001A#32 []).engineStep.stop = some (.fault .divideByZero) ∧
    (at2 0x00A43024#32 []).engineStep.stop = some (.refuse 0x240#10) ∧ ([] : Program).length ≤ 2 ^ 29 - 1 ∧
    (HostCall.runProgram 5 ≠ .reset ∧ ∀ seq, HostCall.runProgram 5 = .loadProgram seq → 2 ^ 29 - 1 < seq.length) ∧
    ∃ long : Program, HostCall.loadProgram long ≠ .reset ∧
      ∀ seq, HostCall.loadProgram long = .loadProgram seq → 2 ^ 29 - 1 < seq.length :=
  ⟨by decide, by decide, by decide, ⟨by decide, fun seq h => by cases h⟩, List.replicate (2 ^ 29) 0#32,
    fun h => by (cases h), fun seq h => by cases h; rw [List.length_replicate]; decide⟩

/-- A plain instruction, each branch not taken, and a step that does not complete. -/
theorem witness_ExactlyOnePcUpdatePerCompletedStep :
    [0x00A43020#32, 0x10220003#32, 0x14210005#32, 0x0020001A#32].all (fun w => decide
      ((at2 w [(1, 5#32), (2, 6#32)]).fetch = .ok w)) = true ∧
    ((∃ t, step (at2 0x00A43020#32 []) = .next t) ∧ decode 0x00A43020#32 = .instr (.add 6 5 4) ∧
      (Instr.add 6 5 4).isControl = false) ∧
    ((∃ t, step (at2 0x10220003#32 [(1, 5#32)]) = .next t) ∧ decode 0x10220003#32 = .instr (.beq 1 2 3#16) ∧
      (at2 0x10220003#32 [(1, 5#32)]).readGpr 1 ≠ (at2 0x10220003#32 [(1, 5#32)]).readGpr 2) ∧
    ((∃ t, step (at2 0x14210005#32 []) = .next t) ∧ decode 0x14210005#32 = .instr (.bne 1 1 5#16)) ∧
    ∀ t, step (at2 0x0020001A#32 []) ≠ .next t :=
  ⟨by decide, ⟨⟨_, rfl⟩, by decide, by decide⟩, ⟨⟨_, rfl⟩, by decide, by decide⟩, ⟨⟨_, rfl⟩, by decide⟩,
    fun t h => by cases h⟩

theorem witness_StepKeepsProgramAndSlots : ∃ t, step (at2 0x00A43020#32 []) = .next t := ⟨_, rfl⟩

theorem witness_OnlyNamedGprIsWritten :
    ((∃ t, exec (.add 6 5 4) State.reset = .next t) ∧ 5 ∉ (Instr.add 6 5 4).gprWrites) ∧
    (at2 0x8C020000#32 []).fetch = .ok 0x8C020000#32 ∧ decode 0x8C020000#32 = .unmapped 0x023#10 ∧
      ∃ t, step (at2 0x8C020000#32 []) = .next t :=
  ⟨⟨⟨_, rfl⟩, by decide⟩, by decide, by decide, _, rfl⟩

/-- A register an instruction writes without reading it, a fault and a refusal. -/
theorem witness_OnlyNamedGprsAreRead :
    (6 ∉ (Instr.add 6 5 4).gprReads ∧ 6 ∈ (Instr.add 6 5 4).gprWrites ∧ ∃ t, exec (.add 6 5 4) State.reset = .next t) ∧
    (3 ∉ (Instr.div 1 2).gprReads ∧ exec (.div 1 2) State.reset = .fault .divideByZero) ∧
    3 ∉ Instr.and.gprReads ∧ exec .and State.reset = .refused (.unsettledKey 0x240#10) :=
  ⟨⟨by decide, by decide, _, rfl⟩, ⟨by decide, rfl⟩, by decide, rfl⟩

theorem witness_HiLoWrittenAndReadOnlyAsNamed :
    ((∃ t, exec (.mtlo 3) State.reset = .next t) ∧ (Instr.mtlo 3).writesHi = false ∧ (Instr.mthi 3).writesLo = false ∧
      ∃ t, exec (.mthi 3) State.reset = .next t) ∧
    ((∀ rd, Instr.mflo 3 ≠ .mfhi rd) ∧ ∃ t, exec (.mflo 3) State.reset = .next t) ∧
    ((∀ rd, Instr.mfhi 3 ≠ .mflo rd) ∧ ∃ t, exec (.mfhi 3) State.reset = .next t) ∧
    ((∀ rd, Instr.div 1 2 ≠ .mfhi rd ∧ Instr.div 1 2 ≠ .mflo rd) ∧
      exec (.div 1 2) State.reset = .fault .divideByZero) ∧
    ((∀ rd, Instr.and ≠ .mfhi rd ∧ Instr.and ≠ .mflo rd) ∧
      exec .and State.reset = .refused (.unsettledKey 0x240#10)) ∧
    (at2 0x00850019#32 []).fetch = .ok 0x00850019#32 ∧ decode 0x00850019#32 = .unmapped 0x190#10 :=
  ⟨⟨⟨_, rfl⟩, rfl, rfl, _, rfl⟩, ⟨by decide, _, rfl⟩, ⟨by decide, _, rfl⟩, ⟨by decide, rfl⟩, ⟨by decide, rfl⟩, by decide,
    by decide⟩

theorem witness_SignedAndUnsignedPairsAgree :
    (∃ a b c, Instr.add 3 1 2 = .add a b c) ∧ ∃ a b imm, Instr.addiu 2 1 5#16 = .addiu a b imm :=
  ⟨⟨3, 1, 2, rfl⟩, 2, 1, 5#16, rfl⟩

theorem witness_HiLoResultsAreSeenByTheNextInstruction :
    (∃ t, exec (.div 1 2) (base 8#32 12#32 [(1, 7#32), (2, 3#32)]) = .next t) ∧
    ∃ t, exec (.divu 1 2) (base 8#32 12#32 [(1, 7#32), (2, 3#32)]) = .next t := ⟨⟨_, rfl⟩, _, rfl⟩

theorem witness_FetchIndexOfNpc : (base 8#32 0#32 []).npc.toNat ≤ 3 ∧ (base 8#32 3#32 []).npc.toNat ≤ 3 ∧
    step (at2 0x0020001A#32 []) = .fault .divideByZero := ⟨by decide, by decide, rfl⟩

/-- The first and the last word of the longest Program. -/
theorem witness_SignedAndUnsignedFetchIndexAgree : (2 ^ 29 - 1 : Nat) ≤ 2 ^ 29 - 1 ∧
    [4#32, 0x7FFFFFFF#32].all (fun v => decide (0 ≤ fetchIndex v ∧ fetchIndex v < (2 ^ 29 - 1 : Nat))) = true := by decide

/-- The state of 2.5's rows, and each clause's instruction in it. -/
theorem witness_NextWordExecuted :
    let s := at2 0#32 [(1, 5#32), (2, 6#32)]
    (s.prog = some [0#32, 0#32, 0#32] ∧ [0#32, 0#32, 0#32].length ≤ 2 ^ 29 - 1 ∧ s.index = (2 : Nat) ∧ 2 < 3) ∧
    ((Instr.add 3 1 2).isControl = false ∧ ∃ t, exec (.add 3 1 2) s = .next t) ∧
    (s.readGpr 1 ≠ s.readGpr 2 ∧ (∃ t, exec (.beq 1 2 3#16) s = .next t) ∧ ∃ t, exec (.bne 1 2 3#16) s = .next t) ∧
    (s.readGpr 1 = s.readGpr 1 ∧ (∃ t, exec (.beq 1 1 3#16) s = .next t) ∧ ∃ t, exec (.bne 1 1 3#16) s = .next t) ∧
    (0 ≤ (2 : Int) + 1 + (0xFFFD#16).toInt ∧ (2 : Int) + 1 + (0xFFFC#16).toInt < 0) ∧
    (∃ t, exec (.j 0x3FFFFFF#26) s = .next t) ∧ (∃ t, exec (.jal 5#26) s = .next t) ∧ ∃ t, exec (.jr 1) s = .next t :=
  ⟨by decide, ⟨rfl, _, rfl⟩, ⟨by decide, ⟨_, rfl⟩, _, rfl⟩, ⟨rfl, ⟨_, rfl⟩, _, rfl⟩, by decide, ⟨_, rfl⟩, ⟨_, rfl⟩, _, rfl⟩

/-- A two-word Program whose first word transfers to its second, for each kind of transfer. -/
def transferState (w : Word) (l : List (RegIdx × Word)) : State := { base 4#32 4#32 l with prog := some [w, 0#32] }

theorem witness_NoDelaySlotWordExecutes :
    ([0x1000FFFF#32, 0#32].length ≤ 2 ^ 29 - 1 ∧
      ∀ p ∈ [(0x1000FFFF#32, 0), (0x14200000#32, 1), (0x08000001#32, 1), (0x0C000000#32, 0), (0x00200008#32, 1)],
        (transferState p.1 [(1, 4#32)]).prog = some [p.1, 0#32] ∧ (transferState p.1 [(1, 4#32)]).stop = none ∧
        (transferState p.1 [(1, 4#32)]).index = (0 : Nat) ∧ [p.1, 0#32][0]? = some p.1 ∧
        ([p.1, 0#32][p.2]?).isSome = true) ∧
    (decode 0x1000FFFF#32 = .instr (.beq 0 0 0xFFFF#16) ∧ ((0 : Nat) : Int) = (0 : Nat) + 1 + (0xFFFF#16).toInt ∧
      ∃ t, step (transferState 0x1000FFFF#32 [(1, 4#32)]) = .next t) ∧
    (decode 0x14200000#32 = .instr (.bne 1 0 0#16) ∧
      (transferState 0x14200000#32 [(1, 4#32)]).readGpr 1 ≠ (transferState 0x14200000#32 [(1, 4#32)]).readGpr 0 ∧
      ((1 : Nat) : Int) = (0 : Nat) + 1 + (0#16).toInt ∧
      ∃ t, step (transferState 0x14200000#32 [(1, 4#32)]) = .next t) ∧
    (decode 0x08000001#32 = .instr (.j 1#26) ∧
      1 = (transferState 0x08000001#32 [(1, 4#32)]).pc.toNat / 2 ^ 28 * 2 ^ 26 + (1#26).toNat ∧
      ∃ t, step (transferState 0x08000001#32 [(1, 4#32)]) = .next t) ∧
    (decode 0x0C000000#32 = .instr (.jal 0#26) ∧
      0 = (transferState 0x0C000000#32 [(1, 4#32)]).pc.toNat / 2 ^ 28 * 2 ^ 26 + (0#26).toNat ∧
      ∃ t, step (transferState 0x0C000000#32 [(1, 4#32)]) = .next t) ∧
    decode 0x00200008#32 = .instr (.jr 1) ∧ 1 = ((transferState 0x00200008#32 [(1, 4#32)]).readGpr 1).toNat / 4 ∧
      ∃ t, step (transferState 0x00200008#32 [(1, 4#32)]) = .next t :=
  ⟨by decide, ⟨by decide, by decide, _, rfl⟩, ⟨by decide, by decide, by decide, _, rfl⟩,
    ⟨by decide, by decide, _, rfl⟩, ⟨by decide, by decide, _, rfl⟩, by decide, by decide, _, rfl⟩

/-- The largest `PC`, a sequential step, and the first step after reset; the later state holds the link. -/
theorem witness_JrAfterJalResumesByOldPc :
    [0x7FFFFFFF#32, 8#32, 4#32].all (fun pc => decide ((base pc 12#32 []).pc.toNat ≤ 4 * (2 ^ 29 - 1) + 3)) = true ∧
    (base 8#32 12#32 []).npc = (base 8#32 12#32 []).pc + 4#32 ∧ (base 4#32 4#32 []).pc = 4#32 ∧
    (∃ t, exec (.jal 5#26) (base 8#32 12#32 []) = .next t ∧ (base 0#32 24#32 [(31, 12#32)]).readGpr 31 = t.readGpr 31) ∧
    ∃ t, exec (.jal 5#26) (base 4#32 4#32 []) = .next t ∧ (base 0#32 24#32 [(31, 8#32)]).readGpr 31 = t.readGpr 31 :=
  ⟨by decide, by decide, by decide, ⟨_, rfl, by decide⟩, _, rfl, by decide⟩

/-- A state that meets the invariant with a Program bound. -/
theorem at2_inv (w : Word) (l : List (RegIdx × Word)) (hpc : (at2 w l).pc = 8#32) (hstop : (at2 w l).stop = none)
    (hprog : (at2 w l).prog = some [0#32, 0#32, w])
    (hfp : (at2 w l).fpr = Vector.replicate 32 0#32 ∧ (at2 w l).fcsr = 0#32) : (at2 w l).Inv where
  store := by rw [hprog]; exact Memory.wf_some_iff.2 (by decide : 3 ≤ Config.nMax)
  pcRange := .inr ⟨_, hprog, by rw [hpc]; decide, by rw [hpc]; simp⟩
  stopNames := fun why h => by rw [hstop] at h; cases h
  fpZero := hfp

theorem witness_ShortProgramsHaveRegionZero : (at2 0x08000001#32 []).Inv ∧
    (at2 0x08000001#32 []).prog = some [0#32, 0#32, 0x08000001#32] ∧
    [0#32, 0#32, 0x08000001#32].length ≤ 2 ^ 26 - 1 ∧ (Instr.j 1#26 = .j 1#26 ∨ Instr.j 1#26 = .jal 1#26) :=
  ⟨at2_inv _ _ (by decide) (by decide) (by decide) (by decide), by decide, by decide, by decide⟩

theorem witness_ResetStateIsAsTabulated : ∀ seq ∈ [([] : Program), [0x00A43020#32]], seq.length ≤ 2 ^ 29 - 1 := by decide

/-- The longest accepted and the shortest rejected sequence. -/
theorem witness_LoadProgramBindsOrRejects :
    (∃ seq : Program, seq.length ≤ 2 ^ 29 - 1 ∧ seq.length = 2 ^ 29 - 1) ∧
    ∃ seq : Program, 2 ^ 29 - 1 < seq.length ∧ seq.length = 2 ^ 29 :=
  ⟨⟨List.replicate (2 ^ 29 - 1) 0#32, by rw [List.length_replicate], List.length_replicate⟩,
    List.replicate (2 ^ 29) 0#32, by rw [List.length_replicate]; decide, List.length_replicate⟩

theorem witness_AccessorsReadAndWriteByIndex :
    (((0 : RegIdx).val : Int) = 0 ∧ ((31 : RegIdx).val : Int) = 31) ∧ ((-1 : Int) < 0 ∨ 31 < (-1 : Int)) ∧
      ((32 : Int) < 0 ∨ 31 < (32 : Int)) := by decide

theorem witness_StepThenRunEndsWhereRunEnds :
    (∃ t, ((at2 0#32 []).stepProgram 1).runProgram 1 = some t) ∧ ∃ t, (at2 0#32 []).runProgram 1 = some t :=
  ⟨⟨_, rfl⟩, _, rfl⟩

theorem witness_ResetReproducesAFreshRun :
    State.loadProgram? [0x20010003#32] = some { State.reset with prog := some [0x20010003#32] } ∧
    ∀ c ∈ [HostCall.setGPR 0 7#32, .runProgram 9, .stepProgram 1, .reset, .gprValue 0, .hi, .lo], ∀ q, c ≠ .loadProgram q :=
  ⟨by decide, fun c h q => by
    simp only [List.mem_cons, List.not_mem_nil, or_false] at h
    rcases h with rfl | rfl | rfl | rfl | rfl | rfl | rfl <;> exact HostCall.noConfusion⟩

/-- A run that ends normally, one that ends in a stop, and the loaded states they start from. -/
theorem witness_RunEndsExactlyWhereNoStepIsEnabled :
    (∃ t, (at2 0#32 []).runProgram 1 = some t) ∧ ((at2 0#32 []).stepProgram 1).enabled = false ∧
    State.reset.enabled = false ∧
    [0x20010003#32, 0x0020001A#32, 0x00A43024#32].all (fun w => decide
      ({ State.reset with prog := some [w] }.prog ≠ none ∧
        { State.reset with prog := some [w] } = { State.reset with prog := some [w] }.hostReset ∧
        ({ State.reset with prog := some [w] }.runProgram 1).isSome = true)) = true := ⟨⟨_, rfl⟩, by decide, by decide, by decide⟩

theorem witness_HaltedStaysHaltedUntilResetOrLoad : { at2 0#32 [] with npc := 16#32 }.Halted ∧
    HostCall.runProgram 5 ≠ .reset ∧ ∀ seq, HostCall.runProgram 5 = .loadProgram seq → 2 ^ 29 - 1 < seq.length :=
  ⟨⟨[0#32, 0#32, 0#32], by decide, by decide, by decide⟩, by decide, fun seq h => by cases h⟩

theorem witness_SelfBranchRunsForever : (at2 0x1000FFFF#32 []).fetch = .ok 0x1000FFFF#32 := by decide

theorem witness_StepKeepsTheInvariant : (at2 0x08000001#32 []).Inv ∧ ∃ t, step (at2 0x08000001#32 []) = .next t :=
  ⟨at2_inv _ _ (by decide) (by decide) (by decide) (by decide), _, rfl⟩

theorem witness_HostCallsKeepTheInvariant : (at2 0x0020001A#32 []).Inv :=
  at2_inv _ _ (by decide) (by decide) (by decide) (by decide)

end Sys2Proof.Tests
end

section
/-! SUPPORT. What the invariant's proofs need: what a completed step keeps, what a host call leaves, and the invariant
itself at reset, across a step and across a recorded stop (spec/10_state.md R30, R33; spec/40_dispatch.md R93, R98;
spec/60_exceptions.md R184, R186). -/

namespace Sys2Proof.Machine

/-! ### What a completed step keeps -/

theorem Effect.sameEngine {i : Instr} {s t : State} (h : Effect i s t) : SameEngine s t := by
  cases h <;> exact ⟨rfl, fun _ => rfl, rfl, rfl, rfl⟩

theorem Effect.pc_eq {i : Instr} {s t : State} (h : Effect i s t) : t.pc = s.npc := by
  cases h <;> rfl

theorem sameEngine_of_step {s t : State} (h : step s = .next t) : SameEngine s t := by
  obtain ⟨w, -, ⟨i, -, hx⟩ | ⟨k, -, rfl⟩⟩ := step_next_cases h
  · exact (effect_of_exec hx).sameEngine
  · obtain ⟨-, -, -, hsame⟩ := jumpsOnly_defaultAdvance s
    exact hsame

theorem pc_of_step {s t : State} (h : step s = .next t) : t.pc = s.npc := by
  obtain ⟨w, -, ⟨i, -, hx⟩ | ⟨k, -, rfl⟩⟩ := step_next_cases h
  · exact (effect_of_exec hx).pc_eq
  · exact State.defaultAdvance_pc s

/-- A fault is raised by the word that decodes to the faulting instruction. -/
theorem raisedBy_of_exec_fault {w : Word} {i : Instr} {s : State} {r : Fault} (hd : decode w = .instr i)
    (h : exec i s = .fault r) : (Stop.fault r).RaisedBy w := by
  obtain ⟨rs, rt, rfl, -, rfl⟩ | ⟨rs, rt, rfl, -, -, rfl⟩ | ⟨rs, rt, rfl, -, rfl⟩ := exec_fault_cases h
  · exact ⟨rs, rt, .inl hd⟩
  · exact ⟨rs, rt, hd⟩
  · exact ⟨rs, rt, .inr hd⟩

namespace State

/-! ### What a host call leaves -/

/-- A run that returns leaves what that many steps leave: past its end no step is enabled (R98, R99). -/
theorem stepProgram_of_runProgram {s t : State} {fuel : Nat} (h : s.runProgram fuel = some t) :
    s.stepProgram fuel = t := by
  induction fuel generalizing s with
  | zero =>
    cases he : s.enabled with
    | true => rw [runProgram_zero_of_enabled he] at h; cases h
    | false => rw [runProgram_of_not_enabled _ he] at h; cases h; rfl
  | succ fuel ih =>
    cases he : s.enabled with
    | true =>
      rw [runProgram_succ_of_enabled _ he] at h
      rw [stepProgram_succ_of_enabled _ he, ih h]
    | false =>
      rw [runProgram_of_not_enabled _ he] at h
      cases h
      exact stepProgram_of_not_enabled _ he

/-- Returned or still running, `runProgram` leaves what `fuel` steps leave. -/
@[simp] theorem call_runProgram_state (s : State) (fuel : Nat) :
    (s.call (.runProgram fuel)).2 = s.stepProgram fuel := by
  simp only [call]
  split
  · next t ht => exact (stepProgram_of_runProgram ht).symm
  · rfl

@[simp] theorem call_gprValue_state (s : State) (index : Int) : (s.call (.gprValue index)).2 = s := by
  simp only [call]
  split <;> rfl

/-- What holds before a call that may be rejected, and of the state it yields when accepted, holds after it. -/
theorem acceptOrReject_keeps {P : State → Prop} {s : State} {t? : Option State} (hs : P s)
    (ht : ∀ t, t? = some t → P t) : P (s.acceptOrReject t?).2 := by
  cases t? with
  | none => exact hs
  | some t => exact ht t rfl

/-- What every host call keeps, every sequence of host calls keeps. -/
theorem calls_keeps (P : State → Prop) (hcall : ∀ s c, P s → P (s.call c).2) (cs : List HostCall) {s : State}
    (h : P s) : P (calls cs s) := by
  induction cs generalizing s with
  | nil => exact h
  | cons c cs ih => exact ih (hcall s c h)

/-! ### The invariant -/

/-- With the registers at their reset values, only the store's form is left to check (R33). -/
theorem inv_of_registersReset {s : State} (hr : RegistersReset s) (hw : s.prog.wf = true) : s.Inv where
  store := hw
  pcRange := .inl hr.pc
  stopNames := fun why h => by rw [hr.stop] at h; cases h
  fpZero := ⟨hr.fpr, hr.fcsr⟩

theorem inv_hostReset {s : State} (h : s.Inv) : s.hostReset.Inv :=
  inv_of_registersReset (registersReset_hostReset s) (hostReset_prog_wf h.store)

theorem inv_reset : State.reset.Inv :=
  inv_of_registersReset (registersReset_hostReset State.reset) reset_prog_wf

theorem inv_loadProgram? {seq : Program} {t : State} (h : State.loadProgram? seq = some t) : t.Inv := by
  have hw : t.prog.wf = true := loadProgram?_prog_wf h
  obtain ⟨-, rfl⟩ := loadProgram?_eq_some_iff.1 h
  exact inv_of_registersReset (registersReset_hostReset { State.reset with prog := some seq }) hw

/-- No clause of the invariant reads a general register. -/
theorem inv_writeGpr {s : State} (h : s.Inv) (r : RegIdx) (v : Word) : (s.writeGpr r v).Inv :=
  ⟨h.store, h.pcRange, h.stopNames, h.fpZero⟩

/-- A completed step keeps the invariant: the new `PC` is the `nPC` the fetch found in bounds, and no stop is recorded
on either side of the step (R93, R155). -/
theorem inv_of_step {s t : State} (hi : s.Inv) (h : step s = .next t) : t.Inv := by
  obtain ⟨w, hf, -⟩ := step_next_cases h
  obtain ⟨hprog, -, hstop, hfpr, hfcsr⟩ := sameEngine_of_step h
  obtain ⟨p, hp, h0, hlt, -⟩ := index_of_fetch hf
  have hlow := (fetchIndex_le_iff s.npc 0).1 h0
  have hhigh := (fetchIndex_lt_iff s.npc p.length).1 hlt
  refine ⟨hprog ▸ hi.store, .inr ⟨p, hprog.trans hp, ?_, ?_⟩, fun why hw => ?_, hfpr ▸ hfcsr ▸ hi.fpZero⟩
  · rw [pc_of_step h]
    omega
  · rw [pc_of_step h]
    omega
  · rw [hstop, (fetch_ok_iff.1 hf).1] at hw
    cases hw

/-- Recording a stop that the fetched word raises keeps the invariant: `nPC` still names that word (R184, R186). -/
theorem inv_recordStop {s : State} {w : Word} {why : Stop} (hi : s.Inv) (hf : s.fetch = .ok w)
    (hr : why.RaisedBy w) : (s.recordStop why).Inv where
  store := hi.store
  pcRange := hi.pcRange
  stopNames := fun why' h => by
    cases h
    exact ⟨w, (fetch_ok_iff.1 hf).2, hr⟩
  fpZero := hi.fpZero

/-- A step of the engine keeps the invariant, whether it completes, faults or is refused (R181). -/
theorem inv_engineStep {s : State} (he : s.enabled = true) (hi : s.Inv) : s.engineStep.Inv := by
  obtain ⟨w, hf⟩ := (enabled_iff_fetch s).1 he
  obtain ⟨t, hs, ht⟩ | ⟨r, hs, ht⟩ | ⟨-, hk, ht⟩ := engineStep_cases hf
  · exact ht ▸ inv_of_step hi hs
  · obtain ⟨w', i, hf', hd, hx⟩ := step_fault_cases hs
    exact ht ▸ inv_recordStop hi hf' (raisedBy_of_exec_fault hd hx)
  · exact ht ▸ inv_recordStop hi hf ⟨rfl, hk⟩

theorem inv_stepProgram {s : State} (hi : s.Inv) (n : Nat) : (s.stepProgram n).Inv :=
  stepProgram_keeps (fun _ => inv_engineStep) n hi

/-- Every host call keeps the invariant, accepted or rejected (R5). -/
theorem inv_call {s : State} (hi : s.Inv) (c : HostCall) : (s.call c).2.Inv := by
  cases c with
  | loadProgram seq => exact acceptOrReject_keeps hi fun _ => inv_loadProgram?
  | runProgram fuel =>
    rw [call_runProgram_state]
    exact inv_stepProgram hi fuel
  | stepProgram n => exact inv_stepProgram hi n
  | reset => exact inv_hostReset hi
  | setGPR index value =>
    refine acceptOrReject_keeps hi fun t ht => ?_
    obtain ⟨r, -, rfl⟩ := setGpr?_eq_some_iff.1 ht
    exact inv_writeGpr hi r value
  | gprValue index =>
    rw [call_gprValue_state]
    exact hi
  | hi => exact hi
  | lo => exact hi

end State

end Sys2Proof.Machine
end

section
/-! CERTIFICATE. The invariant across the host's calls. -/

open Sys2Proof Sys2Proof.Machine

/-- Settles O58: each call keeps the invariant, and the constructed block meets it, so every sequence of calls does. -/
theorem hostCallsKeepTheInvariant : Obligations.HostCallsKeepTheInvariant := by
  unfold Obligations.HostCallsKeepTheInvariant
  exact ⟨fun _ c hi => State.inv_call hi c,
    fun cs => State.calls_keeps State.Inv (fun _ c hi => State.inv_call hi c) cs State.inv_reset⟩
end

section
/-! SUPPORT. Footprints (spec/10_state.md R22, R23): what an instruction leaves unchanged, and that two runs which agree
on its sources end alike. What a step of the engine leaves, and what the host's reset and load leave (R27, R32, R33). -/

namespace Sys2Proof.Machine

/-! ### What an instruction leaves unchanged -/

namespace Effect
variable {i : Instr} {s t : State}

theorem readGpr_eq (h : Effect i s t) {q : RegIdx} (hq : q ∉ i.gprWrites) : t.readGpr q = s.readGpr q := by
  cases h with
  | gpr r v hw => exact State.readGpr_writeGpr_of_ne s v (by simpa [hw] using hq)
  | link r v target hw => exact State.readGpr_writeGpr_of_ne s v (by simpa [hw] using hq)
  | hiLo | hi | lo | advance | redirect => rfl

theorem hi_eq (h : Effect i s t) (hw : i.writesHi = false) : t.hi = s.hi := by
  cases h with
  | hiLo hi lo hh => rw [hh] at hw; cases hw
  | hi v hh => rw [hh] at hw; cases hw
  | gpr | lo | advance | redirect | link => rfl

theorem lo_eq (h : Effect i s t) (hw : i.writesLo = false) : t.lo = s.lo := by
  cases h with
  | hiLo hi lo hh hl => rw [hl] at hw; cases hw
  | lo v hl => rw [hl] at hw; cases hw
  | gpr | hi | advance | redirect | link => rfl

end Effect

/-! ### Two runs of one instruction -/

/-- Two states that agree on all that an instruction reads: its general registers (R22), the accumulator it moves from
(R23), and the program-counter pair. -/
structure SameSources (i : Instr) (s s' : State) : Prop where
  gpr : ∀ q ∈ i.gprReads, s'.readGpr q = s.readGpr q
  hi  : ∀ rd, i = .mfhi rd → s'.hi = s.hi
  lo  : ∀ rd, i = .mflo rd → s'.lo = s.lo
  pc  : s'.pc = s.pc
  npc : s'.npc = s.npc

/-- An instruction completes from both states with the same writes of the same values. The default advance is the
redirection to `nPC + 4`, on which the two states agree. -/
inductive SameEffect (i : Instr) (s s' : State) : State → State → Prop where
  | gpr (r : RegIdx) (v target : Word) (hw : i.gprWrites = [r]) :
      SameEffect i s s' ((s.writeGpr r v).redirect target) ((s'.writeGpr r v).redirect target)
  | hiLo (hi lo target : Word) (hw : i.gprWrites = []) :
      SameEffect i s s' (((s.writeHi hi).writeLo lo).redirect target) (((s'.writeHi hi).writeLo lo).redirect target)
  | hi (v target : Word) (hw : i.gprWrites = []) :
      SameEffect i s s' ((s.writeHi v).redirect target) ((s'.writeHi v).redirect target)
  | lo (v target : Word) (hw : i.gprWrites = []) :
      SameEffect i s s' ((s.writeLo v).redirect target) ((s'.writeLo v).redirect target)
  | pair (target : Word) (hw : i.gprWrites = []) : SameEffect i s s' (s.redirect target) (s'.redirect target)

/-- Two outcomes of the same kind (R181): next states related by `R`, the same fault, or the same refusal. -/
inductive SameOutcome (R : State → State → Prop) : StepResult → StepResult → Prop where
  | next {t t' : State} (h : R t t') : SameOutcome R (.next t) (.next t')
  | fault (r : Fault) : SameOutcome R (.fault r) (.fault r)
  | refused (r : Refusal) : SameOutcome R (.refused r) (.refused r)

/-- Outcomes of the same kind, read from the first to the second. -/
theorem SameOutcome.transfer {R P : State → State → Prop} {o o' : StepResult} (h : SameOutcome R o o')
    (hP : ∀ t t', R t t' → P t t') :
    (∀ t, o = .next t → ∃ t', o' = .next t' ∧ P t t') ∧ (∀ x, o = .fault x → o' = .fault x) ∧
      ∀ x, o = .refused x → o' = .refused x := by
  cases h with
  | next hR => exact ⟨fun t ht => by cases ht; exact ⟨_, rfl, hP _ _ hR⟩, by simp, by simp⟩
  | fault r => simp
  | refused r => simp

theorem State.defaultAdvance_eq_redirect {s : State} {n : Word} (h : s.npc = n) :
    s.defaultAdvance = s.redirect (n + 4#32) := h ▸ rfl

section SharedOperations
variable {i : Instr} {s s' : State}

theorem sameOutcome_writeAndAdvance {r : RegIdx} {v v' : Word} (hw : i.gprWrites = [r]) (hn : s'.npc = s.npc)
    (hv : v' = v) : SameOutcome (SameEffect i s s') (writeAndAdvance s r v) (writeAndAdvance s' r v') := by
  rw [hv, writeAndAdvance, writeAndAdvance, State.defaultAdvance_eq_redirect (s := s'.writeGpr r v) hn]
  exact .next (.gpr r v (s.npc + 4#32) hw)

theorem sameOutcome_writeHiLoAndAdvance (hi lo : Word) (hw : i.gprWrites = []) (hn : s'.npc = s.npc) :
    SameOutcome (SameEffect i s s') (writeHiLoAndAdvance s hi lo) (writeHiLoAndAdvance s' hi lo) := by
  rw [writeHiLoAndAdvance, writeHiLoAndAdvance,
    State.defaultAdvance_eq_redirect (s := (s'.writeHi hi).writeLo lo) hn]
  exact .next (.hiLo hi lo (s.npc + 4#32) hw)

theorem sameOutcome_branchIf (taken : Bool) (imm : BitVec 16) (hw : i.gprWrites = []) (hn : s'.npc = s.npc) :
    SameOutcome (SameEffect i s s') (branchIf taken s imm) (branchIf taken s' imm) := by
  cases taken with
  | true =>
    simp only [branchIf, if_true, hn]
    exact .next (.pair _ hw)
  | false =>
    simp only [branchIf, Bool.false_eq_true, if_false, State.defaultAdvance_eq_redirect hn]
    exact .next (.pair (s.npc + 4#32) hw)

end SharedOperations

/-- Two runs that agree on an instruction's sources end alike. -/
theorem sameOutcome_exec {i : Instr} {s s' : State} (h : SameSources i s s') :
    SameOutcome (SameEffect i s s') (exec i s) (exec i s') := by
  obtain ⟨hg, hhi, hlo, hpc, hn⟩ := h
  cases i with
  | add rd rs rt =>
    exact sameOutcome_writeAndAdvance rfl hn (congrArg₂ (· + ·) (hg rs (.head _)) (hg rt (.tail _ (.head _))))
  | addu rd rs rt =>
    exact sameOutcome_writeAndAdvance rfl hn (congrArg₂ (· + ·) (hg rs (.head _)) (hg rt (.tail _ (.head _))))
  | sub rd rs rt =>
    exact sameOutcome_writeAndAdvance rfl hn (congrArg₂ (· - ·) (hg rs (.head _)) (hg rt (.tail _ (.head _))))
  | subu rd rs rt =>
    exact sameOutcome_writeAndAdvance rfl hn (congrArg₂ (· - ·) (hg rs (.head _)) (hg rt (.tail _ (.head _))))
  | addi rt rs imm => exact sameOutcome_writeAndAdvance rfl hn (congrArg (· + sext16 imm) (hg rs (.head _)))
  | addiu rt rs imm => exact sameOutcome_writeAndAdvance rfl hn (congrArg (· + sext16 imm) (hg rs (.head _)))
  | mfhi rd => exact sameOutcome_writeAndAdvance rfl hn (hhi rd rfl)
  | mflo rd => exact sameOutcome_writeAndAdvance rfl hn (hlo rd rfl)
  | mult rs rt =>
    simp only [exec, execMult, hg rs (.head _), hg rt (.tail _ (.head _))]
    exact sameOutcome_writeHiLoAndAdvance _ _ rfl hn
  | div rs rt =>
    simp only [exec, execDiv, hg rs (.head _), hg rt (.tail _ (.head _))]
    split
    · exact .fault _
    · split
      · exact .fault _
      · exact sameOutcome_writeHiLoAndAdvance _ _ rfl hn
  | divu rs rt =>
    simp only [exec, execDivu, hg rs (.head _), hg rt (.tail _ (.head _))]
    split
    · exact .fault _
    · exact sameOutcome_writeHiLoAndAdvance _ _ rfl hn
  | mthi rs =>
    simp only [exec, execMthi, hg rs (.head _)]
    rw [State.defaultAdvance_eq_redirect (s := s'.writeHi (s.readGpr rs)) hn]
    exact .next (.hi _ (s.npc + 4#32) rfl)
  | mtlo rs =>
    simp only [exec, execMtlo, hg rs (.head _)]
    rw [State.defaultAdvance_eq_redirect (s := s'.writeLo (s.readGpr rs)) hn]
    exact .next (.lo _ (s.npc + 4#32) rfl)
  | beq rs rt imm =>
    simp only [exec, execBeq, hg rs (.head _), hg rt (.tail _ (.head _))]
    exact sameOutcome_branchIf _ imm rfl hn
  | bne rs rt imm =>
    simp only [exec, execBne, hg rs (.head _), hg rt (.tail _ (.head _))]
    exact sameOutcome_branchIf _ imm rfl hn
  | j address =>
    simp only [exec, execJ, hpc]
    exact .next (.pair _ rfl)
  | jal address =>
    simp only [exec, execJal, hpc]
    exact .next (.gpr _ _ _ rfl)
  | jr rs =>
    simp only [exec, execJr, hg rs (.head _)]
    exact .next (.pair _ rfl)
  | and => exact .refused _
  | or => exact .refused _
  | xor => exact .refused _
  | nor => exact .refused _
  | andi => exact .refused _
  | ori => exact .refused _

/-! ### A changed source that is none -/

namespace State

@[simp] theorem writeGpr_writeGpr_self (s : State) (r : RegIdx) (v w : Word) :
    (s.writeGpr r v).writeGpr r w = s.writeGpr r w := by
  simp [writeGpr]

theorem writeGpr_comm (s : State) {q r : RegIdx} (v w : Word) (h : q ≠ r) :
    (s.writeGpr q v).writeGpr r w = (s.writeGpr r w).writeGpr q v := by
  simp only [writeGpr, Vector.set_comm _ _ (Fin.val_ne_of_ne h)]

theorem redirect_writeGpr (s : State) (r : RegIdx) (v target : Word) :
    (s.redirect target).writeGpr r v = (s.writeGpr r v).redirect target := rfl

theorem writeHi_writeGpr (s : State) (r : RegIdx) (v hi : Word) :
    (s.writeHi hi).writeGpr r v = (s.writeGpr r v).writeHi hi := rfl

theorem writeLo_writeGpr (s : State) (r : RegIdx) (v lo : Word) :
    (s.writeLo lo).writeGpr r v = (s.writeGpr r v).writeLo lo := rfl

end State

section UnreadSource
variable {i : Instr} {s : State} {v : Word}

theorem sameSources_writeGpr {r : RegIdx} (h : r ∉ i.gprReads) : SameSources i s (s.writeGpr r v) where
  gpr := fun _ hq => State.readGpr_writeGpr_of_ne s v fun e => h (e ▸ hq)
  hi := fun _ _ => rfl
  lo := fun _ _ => rfl
  pc := rfl
  npc := rfl

theorem sameSources_writeHi (h : ∀ rd, i ≠ .mfhi rd) : SameSources i s (s.writeHi v) where
  gpr := fun _ _ => rfl
  hi := fun rd e => absurd e (h rd)
  lo := fun _ _ => rfl
  pc := rfl
  npc := rfl

theorem sameSources_writeLo (h : ∀ rd, i ≠ .mflo rd) : SameSources i s (s.writeLo v) where
  gpr := fun _ _ => rfl
  hi := fun _ _ => rfl
  lo := fun rd e => absurd e (h rd)
  pc := rfl
  npc := rfl

/-- The same writes after a change of register `r` leave states that differ in `r` at most, and not even there when `r`
is written. -/
theorem SameEffect.writeGpr {r : RegIdx} {t t' : State} (h : SameEffect i s (s.writeGpr r v) t t') :
    t'.writeGpr r 0#32 = t.writeGpr r 0#32 ∧ (r ∈ i.gprWrites → t' = t) := by
  cases h with
  | gpr q x target hw =>
    by_cases hq : q = r
    · subst hq
      simp
    · rw [State.writeGpr_comm s v x (Ne.symm hq)]
      exact ⟨by simp [State.redirect_writeGpr], fun hr => absurd (by simpa [hw] using hr) (Ne.symm hq)⟩
  | hiLo hi lo target hw =>
    exact ⟨by simp [State.redirect_writeGpr, State.writeLo_writeGpr, State.writeHi_writeGpr], by simp [hw]⟩
  | hi x target hw => exact ⟨by simp [State.redirect_writeGpr, State.writeHi_writeGpr], by simp [hw]⟩
  | lo x target hw => exact ⟨by simp [State.redirect_writeGpr, State.writeLo_writeGpr], by simp [hw]⟩
  | pair target hw => exact ⟨by simp [State.redirect_writeGpr], by simp [hw]⟩

/-- The same writes after a change of `HI` leave states that differ in `HI` at most. -/
theorem SameEffect.writeHi {t t' : State} (h : SameEffect i s (s.writeHi v) t t') :
    t'.writeHi 0#32 = t.writeHi 0#32 := by
  cases h <;> rfl

/-- The same writes after a change of `LO` leave states that differ in `LO` at most. -/
theorem SameEffect.writeLo {t t' : State} (h : SameEffect i s (s.writeLo v) t t') :
    t'.writeLo 0#32 = t.writeLo 0#32 := by
  cases h <;> rfl

end UnreadSource

namespace State

/-! ### What a step of the engine leaves -/

/-- A step of the engine leaves the next state of a completed step, the state it began in with a stop recorded, or that
state itself (R90, R181). -/
theorem engineStep_eq_cases (s : State) :
    step s = .next s.engineStep ∨ (∃ why, s.engineStep = s.recordStop why) ∨ s.engineStep = s := by
  cases hf : s.fetch with
  | error why => exact .inr (.inr (by rw [engineStep, step_of_fetch_error hf, afterOutcome_notEnabled]))
  | ok w =>
    obtain ⟨t, hs, ht⟩ | ⟨r, -, ht⟩ | ⟨-, -, ht⟩ := engineStep_cases hf
    · exact .inl (ht ▸ hs)
    · exact .inr (.inl ⟨_, ht⟩)
    · exact .inr (.inl ⟨_, ht⟩)

/-- Completed or not, a step of the engine keeps the binding, the store's words and the floating-point slots (R27, R32,
R50). -/
theorem engineStep_keeps_program_and_slots (s : State) :
    s.engineStep.prog = s.prog ∧ (∀ i, s.engineStep.wordAt i = s.wordAt i) ∧ s.engineStep.fpr = s.fpr ∧
      s.engineStep.fcsr = s.fcsr := by
  obtain h | ⟨why, h⟩ | h := engineStep_eq_cases s
  · obtain ⟨hprog, hword, -, hfpr, hfcsr⟩ := sameEngine_of_step h
    exact ⟨hprog, hword, hfpr, hfcsr⟩
  · rw [h]
    exact ⟨rfl, fun _ => rfl, rfl, rfl⟩
  · rw [h]
    exact ⟨rfl, fun _ => rfl, rfl, rfl⟩

/-! ### What the host's calls leave -/

/-- An accepted `loadProgram` leaves the reset registers with the sequence bound (R203). -/
theorem call_loadProgram_of_le (s : State) {seq : Program} (h : seq.length ≤ Config.nMax) :
    s.call (.loadProgram seq) = (.returned, { State.reset with prog := some seq }) := by
  simp only [call, loadProgram?_eq_some_iff.2 ⟨h, rfl⟩, acceptOrReject]

theorem sameHiLo_call_setGPR (s : State) (index : Int) (v : Word) : SameHiLo s (s.call (.setGPR index v)).2 := by
  refine acceptOrReject_keeps ⟨rfl, rfl⟩ fun t ht => ?_
  obtain ⟨r, -, rfl⟩ := setGpr?_eq_some_iff.1 ht
  exact ⟨rfl, rfl⟩

end State

end Sys2Proof.Machine
end

section
/-! CERTIFICATE. The state: what a step keeps, what an instruction reads and writes, and the reset values. -/

open Sys2Proof Sys2Proof.Machine

/-- Settles O57: the new `PC` is the `nPC` the fetch found in bounds, and the rest of the invariant is kept. -/
theorem stepKeepsTheInvariant : Obligations.StepKeepsTheInvariant := by
  unfold Obligations.StepKeepsTheInvariant
  exact fun _ _ hi h => State.inv_of_step hi h

/-- Settles O36: a completed step has the engine's frame, and a step that stops writes the stop record alone. -/
theorem stepKeepsProgramAndSlots : Obligations.StepKeepsProgramAndSlots := by
  unfold Obligations.StepKeepsProgramAndSlots
  exact fun s => ⟨fun _ h => sameEngine_of_step h, State.engineStep_keeps_program_and_slots s⟩

/-- Settles O37: each effect of an instruction writes no general register but the one the instruction names. -/
theorem onlyNamedGprIsWritten : Obligations.OnlyNamedGprIsWritten := by
  unfold Obligations.OnlyNamedGprIsWritten
  refine ⟨fun i s t q h hq => (effect_of_exec h).readGpr_eq hq, fun s t w k hf hd h => ?_⟩
  rw [step_of_unmapped hf hd] at h
  cases h
  exact State.defaultAdvance_readGpr s

/-- Settles O38: two runs that differ in a register which is no source make the same writes. -/
theorem onlyNamedGprsAreRead : Obligations.OnlyNamedGprsAreRead := by
  unfold Obligations.OnlyNamedGprsAreRead
  exact fun i s r v hr => (sameOutcome_exec (sameSources_writeGpr hr)).transfer fun _ _ h => h.writeGpr

/-- Settles O39: the writers by the effects, the readers by two runs that differ in one accumulator. -/
theorem hiLoWrittenAndReadOnlyAsNamed : Obligations.HiLoWrittenAndReadOnlyAsNamed := by
  unfold Obligations.HiLoWrittenAndReadOnlyAsNamed
  refine ⟨fun i s t h => ⟨(effect_of_exec h).hi_eq, (effect_of_exec h).lo_eq⟩,
    fun i s v hi => (sameOutcome_exec (sameSources_writeHi hi)).transfer fun _ _ h => h.writeHi,
    fun i s v hi => (sameOutcome_exec (sameSources_writeLo hi)).transfer fun _ _ h => h.writeLo,
    fun s w k hi lo hf hd => ⟨s.defaultAdvance, step_of_unmapped hf hd, ⟨rfl, rfl⟩, ?_⟩,
    fun s index v => ⟨State.sameHiLo_call_setGPR s index v, ?_, ⟨rfl, rfl⟩, ⟨rfl, rfl⟩⟩, fun s => ⟨rfl, rfl⟩⟩
  · exact step_of_unmapped (by simpa using hf) hd
  · rw [State.call_gprValue_state]
    exact ⟨rfl, rfl⟩

/-- Settles O48: construction, `reset()` and an accepted `loadProgram` all leave the reset registers. -/
theorem resetStateIsAsTabulated : Obligations.ResetStateIsAsTabulated := by
  unfold Obligations.ResetStateIsAsTabulated
  refine ⟨⟨registersReset_hostReset State.reset, rfl⟩, fun s => ⟨registersReset_hostReset s, rfl⟩,
    fun s seq h => ?_⟩
  rw [State.call_loadProgram_of_le s h]
  exact ⟨registersReset_hostReset { State.reset with prog := some seq }, rfl⟩

/-- Settles O56: the constructed block has the reset registers and an empty binding. -/
theorem constructedBlockMeetsTheInvariant : Obligations.ConstructedBlockMeetsTheInvariant := by
  unfold Obligations.ConstructedBlockMeetsTheInvariant
  exact State.inv_reset
end

section
/-! SUPPORT. The fetch index against the other two readings of `nPC`: with its low two bits cleared, and as a signed
number (spec/20_memory.md R41 to R43). -/

namespace Sys2Proof.Machine

/-! ### The fetch index and the value of `nPC` -/

theorem fetchIndex_eq_iff (v : Word) (i : Int) :
    fetchIndex v = i ↔ 4 * (i + 1) ≤ (v.toNat : Int) ∧ (v.toNat : Int) ≤ 4 * (i + 1) + 3 := by
  have hle := fetchIndex_le_iff v i
  have hlt := fetchIndex_lt_iff v (i + 1)
  omega

/-- The mask clears only the two bits that the division by 4 drops (R42). -/
theorem fetchIndex_clearLowBits (v : Word) : fetchIndex (v &&& 0xFFFFFFFC#32) = fetchIndex v := by
  have hdiv : (v &&& 0xFFFFFFFC#32).toNat / 4 = v.toNat / 4 := by
    calc (v &&& 0xFFFFFFFC#32).toNat / 2 ^ 2
        = v.toNat / 2 ^ 2 &&& (2 ^ 30 - 1) := by rw [BitVec.toNat_and, Nat.and_div_two_pow]; rfl
      _ = v.toNat / 2 ^ 2 := by rw [Nat.and_two_pow_sub_one_eq_mod, Nat.mod_eq_of_lt (by omega)]
  rw [fetchIndex, hdiv, fetchIndex]

/-- Below `2^31` the signed reading is the unsigned one, and the division has nothing to truncate. -/
theorem signedIndex_eq_fetchIndex {v : Word} (h : v.toNat < 2 ^ 31) : v.toInt.tdiv 4 - 1 = fetchIndex v := by
  rw [BitVec.toInt_eq_toNat_of_lt (by omega), Int.tdiv_eq_ediv_of_nonneg (by omega), fetchIndex, Int.natCast_ediv]
  rfl

/-- From `2^31` on the signed reading is negative, and so is its truncated quarter. -/
theorem signedIndex_neg {v : Word} (h : 2 ^ 31 ≤ v.toNat) : v.toInt.tdiv 4 - 1 < 0 := by
  have hneg : v.toInt < 0 := by rw [BitVec.toInt_neg_iff]; omega
  have hquarter : v.toInt.tdiv 4 ≤ Int.tdiv 0 4 := Int.tdiv_le_tdiv (by decide) (by omega)
  rw [Int.zero_tdiv] at hquarter
  omega

namespace State

/-! ### The fetch port reads `nPC` through its index -/

theorem fetch_with_npc {s : State} {v : Word} (h : fetchIndex v = fetchIndex s.npc) :
    ({ s with npc := v } : State).fetch = s.fetch := by
  simp only [fetch, wordAt, index, h]

theorem not_enabled_of_index_neg {s : State} (h : s.index < 0) : s.enabled = false := by
  rw [← Bool.not_eq_true, enabled_iff_fetch]
  rintro ⟨w, hw⟩
  obtain ⟨p, -, h0, -⟩ := index_of_fetch hw
  omega

end State

end Sys2Proof.Machine
end

section
/-! CERTIFICATE. The fetch port: which `nPC` values select a word, and how they may be read. -/

open Sys2Proof Sys2Proof.Machine

/-- Settles O42: the fetch reads `nPC` only through its index, and a fault comes from the fetched word's instruction. -/
theorem fetchIndexOfNpc : Obligations.FetchIndexOfNpc := by
  unfold Obligations.FetchIndexOfNpc
  refine ⟨fetchIndex_eq_iff, fun s => State.fetch_with_npc (fetchIndex_clearLowBits s.npc), fun s h => ?_, by decide,
    fun _ _ => step_fault_cases⟩
  have hi : fetchIndex s.npc = -1 := (fetchIndex_eq_iff s.npc (-1)).2 (by omega)
  exact ⟨hi, State.not_enabled_of_index_neg (by rw [State.index, hi]; decide)⟩

/-- Settles O43: the readings are one below `2^31`; from there on the signed index is negative and the unsigned one is
past the longest Program (D11). -/
theorem signedAndUnsignedFetchIndexAgree : Obligations.SignedAndUnsignedFetchIndexAgree := by
  unfold Obligations.SignedAndUnsignedFetchIndexAgree
  intro v n hn
  obtain hlow | hhigh := Nat.lt_or_ge v.toNat (2 ^ 31)
  · simp [signedIndex_eq_fetchIndex hlow]
  · have hneg := signedIndex_neg hhigh
    have hpast : (n : Int) ≤ fetchIndex v := (fetchIndex_le_iff v n).2 (by omega)
    omega
end

section
/-! SUPPORT. The decoder as a match on bits: which fields give a key, what decodes to an instruction or to an unmapped
key, and each handler's read fields as a mask and a match (spec/30_encoding.md R61, R62, R68 to R72). -/

namespace Sys2Proof

@[simp] theorem regBits_zero : regBits 0 = 0#5 := rfl

/-! ### The fields that give a key -/

theorem dispatchKey_of_special {w : Word} {f : BitVec 6} (hop : (instructionView w).opcode = 0#6)
    (hfunct : (instructionView w).funct = f) : dispatchKey w = f.setWidth 10 <<< 4 := by
  rw [dispatchKey, hop, hfunct, keyOf_special]

theorem dispatchKey_of_primary {w : Word} {op : BitVec 6} (h0 : op ≠ 0#6) (hop : (instructionView w).opcode = op) :
    dispatchKey w = op.setWidth 10 := by
  rw [dispatchKey, hop, keyOf_primary _ _ h0]

/-- A function code of 4 or more gives a key that no opcode gives (R68, R71). -/
theorem keyOf_eq_special_iff {op funct f : BitVec 6} (hf : 4 ≤ f.toNat) :
    keyOf op funct = f.setWidth 10 <<< 4 ↔ op = 0#6 ∧ funct = f := by
  have := op.isLt
  rw [← keyOf_special, BitVec.toNat_eq, keyOf_toNat, keyOf_toNat, if_pos rfl]
  split
  · next h => simp only [h, true_and, BitVec.toNat_eq]; omega
  · next h => simp only [h, false_and, iff_false]; omega

/-- An opcode that is no multiple of 16 gives a key that no function code gives (R68, R71). -/
theorem keyOf_eq_primary_iff {op funct p : BitVec 6} (hp : p.toNat % 16 ≠ 0) :
    keyOf op funct = p.setWidth 10 ↔ op = p := by
  have hp0 : p ≠ 0#6 := fun h => hp (by rw [h]; rfl)
  rw [← keyOf_primary p 0#6 hp0, BitVec.toNat_eq, keyOf_toNat, keyOf_toNat, if_neg hp0]
  split
  · next h => subst h; simp only [hp0.symm, iff_false]; omega
  · exact (BitVec.toNat_eq).symm

/-! ### What decodes to an instruction, and what to an unmapped key -/

/-- A word decodes to an instruction exactly when it has its key and the key's row builds it from the word's fields. -/
theorem decode_eq_instr_iff {w : Word} {i : Instr} {row : DispatchRow}
    (hrow : lookup (dispatchTable ++ unsettledTable) i.key = some row) :
    decode w = .instr i ↔ dispatchKey w = i.key ∧ row.build (instructionView w) = i := by
  constructor
  · intro h
    have hk := dispatchKey_of_decode h
    rw [decode_of_key hk, hrow] at h
    exact ⟨hk, Decoded.instr.inj h⟩
  · rintro ⟨hk, hb⟩
    rw [decode_of_key hk, hrow, ← hb]

theorem decode_eq_unmapped_iff {w : Word} {k : Key} :
    decode w = .unmapped k ↔ k = dispatchKey w ∧ k ∉ tableKeys ∧ k ∉ unsettledKeys := by
  have hkeys : (dispatchTable ++ unsettledTable).map (·.key) = tableKeys ++ unsettledKeys := List.map_append
  obtain ⟨row, hm, hk, hd⟩ | ⟨hk, hd⟩ := decode_cases w
  · have hmem : dispatchKey w ∈ tableKeys ++ unsettledKeys := hkeys ▸ hk ▸ List.mem_map_of_mem hm
    rw [hd, ← not_or, ← List.mem_append]
    refine iff_of_false (by simp) ?_
    rintro ⟨rfl, hn⟩
    exact hn hmem
  · rw [hkeys, List.mem_append, not_or] at hk
    rw [hd, Decoded.unmapped.injEq]
    constructor
    · rintro rfl
      exact ⟨rfl, hk⟩
    · exact fun h => h.1.symm

/-! ### The read fields as a mask and a match -/

section Match
variable {w : Word} {i : Instr} {row : DispatchRow}

/-- An R-shape row: the three register masks keep the fields its handler reads. -/
theorem decode_iff_match_R {f : BitVec 6} {rd rs rt : RegIdx} (mrd mrs mrt : BitVec 5)
    (hrow : lookup (dispatchTable ++ unsettledTable) i.key = some row)
    (hencode : encode i = encodeR f rs rt rd) (hkey : i.key = f.setWidth 10 <<< 4) (hf : 4 ≤ f.toNat)
    (hmask : fieldMask i = joinR 0x3F#6 mrs mrt mrd 0#5 0x3F#6)
    (hbuild : ∀ v, row.build v = i ↔
      regBits v.rd &&& mrd = regBits rd ∧ regBits v.rs &&& mrs = regBits rs ∧ regBits v.rt &&& mrt = regBits rt) :
    decode w = .instr i ↔ w &&& fieldMask i = encode i := by
  have hjoin : encodeR f rs rt rd = joinR 0#6 (regBits rs) (regBits rt) (regBits rd) 0#5 f := rfl
  rw [decode_eq_instr_iff hrow, hbuild, hkey, dispatchKey, keyOf_eq_special_iff hf, hmask, hencode, hjoin]
  conv_rhs => rw [← joinR_instructionView w, joinR_and, joinR_inj]
  simp only [and_ones6, BitVec.and_zero, true_and]
  tauto

/-- The fields of the I shape, joined, are the word. -/
theorem encodeI_instructionView (w : Word) :
    encodeI (instructionView w).opcode (instructionView w).rs (instructionView w).rt (instructionView w).imm = w := by
  apply BitVec.eq_of_toNat_eq
  have := w.isLt
  simp only [encodeI_toNat, instructionView, regOf_val, BitVec.extractLsb_toNat, Nat.shiftRight_eq_div_pow]
  omega

/-- The fields of the J shape, joined, are the word. -/
theorem encodeJ_instructionView (w : Word) :
    encodeJ (instructionView w).opcode (instructionView w).address = w := by
  apply BitVec.eq_of_toNat_eq
  have := w.isLt
  simp only [encodeJ_toNat, instructionView, BitVec.extractLsb_toNat, Nat.shiftRight_eq_div_pow]
  omega

theorem eq_encodeI_iff {op : BitVec 6} {rs rt : RegIdx} {imm : BitVec 16} :
    w = encodeI op rs rt imm ↔ (instructionView w).opcode = op ∧ (instructionView w).rs = rs ∧
      (instructionView w).rt = rt ∧ (instructionView w).imm = imm := by
  constructor
  · rintro rfl
    exact encodeI_fields op rs rt imm
  · rintro ⟨rfl, rfl, rfl, rfl⟩
    exact (encodeI_instructionView w).symm

theorem eq_encodeJ_iff {op : BitVec 6} {address : BitVec 26} :
    w = encodeJ op address ↔ (instructionView w).opcode = op ∧ (instructionView w).address = address := by
  constructor
  · rintro rfl
    exact encodeJ_fields op address
  · rintro ⟨rfl, rfl⟩
    exact (encodeJ_instructionView w).symm

/-- An I-shape row of the table: every bit is read. -/
theorem decode_iff_match_I {op : BitVec 6} {rs rt : RegIdx} {imm : BitVec 16}
    (hrow : lookup (dispatchTable ++ unsettledTable) i.key = some row)
    (hencode : encode i = encodeI op rs rt imm) (hkey : i.key = op.setWidth 10) (hop : op.toNat % 16 ≠ 0)
    (hmask : fieldMask i = BitVec.allOnes 32)
    (hbuild : ∀ v, row.build v = i ↔ v.rs = rs ∧ v.rt = rt ∧ v.imm = imm) :
    decode w = .instr i ↔ w &&& fieldMask i = encode i := by
  rw [decode_eq_instr_iff hrow, hbuild, hkey, dispatchKey, keyOf_eq_primary_iff hop, hmask, hencode,
    BitVec.and_allOnes, eq_encodeI_iff]

/-- A J-shape row: every bit is read. -/
theorem decode_iff_match_J {op : BitVec 6} {address : BitVec 26}
    (hrow : lookup (dispatchTable ++ unsettledTable) i.key = some row)
    (hencode : encode i = encodeJ op address) (hkey : i.key = op.setWidth 10) (hop : op.toNat % 16 ≠ 0)
    (hmask : fieldMask i = BitVec.allOnes 32) (hbuild : ∀ v, row.build v = i ↔ v.address = address) :
    decode w = .instr i ↔ w &&& fieldMask i = encode i := by
  rw [decode_eq_instr_iff hrow, hbuild, hkey, dispatchKey, keyOf_eq_primary_iff hop, hmask, hencode,
    BitVec.and_allOnes, eq_encodeJ_iff]

/-- A row of which only the opcode is read (R73). -/
theorem decode_iff_match_opcode {op : BitVec 6}
    (hrow : lookup (dispatchTable ++ unsettledTable) i.key = some row)
    (hencode : encode i = encodeI op 0 0 0#16) (hkey : i.key = op.setWidth 10) (hop : op.toNat % 16 ≠ 0)
    (hmask : fieldMask i = 0xFC000000#32) (hbuild : ∀ v, row.build v = i) :
    decode w = .instr i ↔ w &&& fieldMask i = encode i := by
  have hjoin : encodeI op 0 0 0#16 = joinR op 0#5 0#5 0#5 0#5 0#6 := by
    simp [BitVec.toNat_eq, encodeI_toNat, joinR_toNat]
  rw [decode_eq_instr_iff hrow, hkey, dispatchKey, keyOf_eq_primary_iff hop, hmask, hencode, hjoin, mask_primary_iff]
  exact and_iff_left (hbuild _)

end Match

/-- R69's mask and match with the operand fields (R70), one case per set of read fields. -/
theorem decode_iff_match (w : Word) (i : Instr) : decode w = .instr i ↔ w &&& fieldMask i = encode i := by
  cases i with
  | add rd rs rt | addu rd rs rt | sub rd rs rt | subu rd rs rt =>
    exact decode_iff_match_R 0x1F#5 0x1F#5 0x1F#5 rfl rfl rfl (by decide) rfl (by simp [and_ones5, regBits_inj])
  | mult rs rt | div rs rt | divu rs rt =>
    exact decode_iff_match_R 0#5 0x1F#5 0x1F#5 rfl rfl rfl (by decide) rfl (by simp [and_ones5, regBits_inj])
  | jr rs | mthi rs | mtlo rs =>
    exact decode_iff_match_R 0#5 0x1F#5 0#5 rfl rfl rfl (by decide) rfl (by simp [and_ones5, regBits_inj])
  | mfhi rd | mflo rd =>
    exact decode_iff_match_R 0x1F#5 0#5 0#5 rfl rfl rfl (by decide) rfl (by simp [and_ones5, regBits_inj])
  | and | or | xor | nor => exact decode_iff_match_R 0#5 0#5 0#5 rfl rfl rfl (by decide) rfl (by simp)
  | addi rt rs imm | addiu rt rs imm =>
    exact decode_iff_match_I rfl rfl rfl (by decide) rfl (by simp [and_left_comm])
  | beq rs rt imm | bne rs rt imm => exact decode_iff_match_I rfl rfl rfl (by decide) rfl (by simp)
  | j address | jal address => exact decode_iff_match_J rfl rfl rfl (by decide) rfl (by simp)
  | andi | ori => exact decode_iff_match_opcode rfl rfl rfl (by decide) rfl (fun _ => rfl)

/-- The encoded word has the instruction's key and its operands (R61, R62), one case per shape. -/
theorem decode_encode (i : Instr) : decode (encode i) = .instr i := by
  cases i with
  | add rd rs rt | addu rd rs rt | sub rd rs rt | subu rd rs rt | mult rs rt | div rs rt | divu rs rt | jr rs
  | mfhi rd | mthi rs | mflo rd | mtlo rs | and | or | xor | nor =>
    exact (decode_eq_instr_iff rfl).2 ⟨dispatchKey_encodeR _ _ _ _, by simp [encode, instructionView_encodeR]⟩
  | addi rt rs imm | addiu rt rs imm | beq rs rt imm | bne rs rt imm | andi | ori =>
    exact (decode_eq_instr_iff rfl).2 ⟨dispatchKey_encodeI _ _ _ _ (by decide), by simp [encode, encodeI_fields]⟩
  | j address | jal address =>
    exact (decode_eq_instr_iff rfl).2 ⟨dispatchKey_encodeJ _ _ (by decide), by simp [encode, encodeJ_fields]⟩

end Sys2Proof
end

section
/-! CERTIFICATE. Words and instructions: the round trip, the key, the fields and the operand forms
(spec/30_encoding.md). -/

open Sys2Proof Sys2Proof.Machine

/-- Settles O20: the encoded word has the key of the instruction, and its fields are the operands. -/
theorem encodedInstructionDecodesToItself : Obligations.EncodedInstructionDecodesToItself := by
  unfold Obligations.EncodedInstructionDecodesToItself
  exact decode_encode

/-- Settles O21: each key determines the fields it comes from, and masking acts field by field. -/
theorem wordDecodesByItsReadFieldsAlone : Obligations.WordDecodesByItsReadFieldsAlone := by
  unfold Obligations.WordDecodesByItsReadFieldsAlone
  exact decode_iff_match

/-- Settles O22: the decoder's second case, with both key lists written out. -/
theorem unmappedKeysAreExactlyTheOthers : Obligations.UnmappedKeysAreExactlyTheOthers := by
  unfold Obligations.UnmappedKeysAreExactlyTheOthers
  exact fun _ _ => decode_eq_unmapped_iff

/-- Settles O24: either field produces the three keys, and they stand in neither list. -/
theorem collidingKeysAreUnmapped : Obligations.CollidingKeysAreUnmapped := by
  unfold Obligations.CollidingKeysAreUnmapped
  refine ⟨fun w => ⟨dispatchKey_of_special, dispatchKey_of_special, dispatchKey_of_special,
    dispatchKey_of_primary (by decide), dispatchKey_of_primary (by decide), dispatchKey_of_primary (by decide)⟩,
    fun w hk => ?_⟩
  have hnone : dispatchKey w ∉ tableKeys ∧ dispatchKey w ∉ unsettledKeys := by
    rcases hk with h | h | h <;> rw [h] <;> decide
  have hd : decode w = .unmapped (dispatchKey w) := decode_eq_unmapped_iff.2 ⟨rfl, hnone⟩
  exact ⟨hd, fun s hf => ⟨s.defaultAdvance, step_of_unmapped hf hd, jumpsOnly_defaultAdvance s⟩⟩

/-- Settles O26: an extracted field is the word's number shifted right and reduced. The four in the middle are so at
once; the opcode needs the bound of the word, and the other three have a shift by 0. -/
theorem fieldsAreTheBitsOfTheWord : Obligations.FieldsAreTheBitsOfTheWord := by
  unfold Obligations.FieldsAreTheBitsOfTheWord
  intro w
  have := w.isLt
  simp only [instructionView, regOf_val, BitVec.extractLsb_toNat, Nat.shiftRight_eq_div_pow, true_and]
  refine ⟨?_, ?_, ?_, ?_⟩ <;> omega

/-- Settles O25: the number of a key, with the two fields as the bits they are. -/
theorem dispatchKeyFromOpcodeAndFunct : Obligations.DispatchKeyFromOpcodeAndFunct := by
  unfold Obligations.DispatchKeyFromOpcodeAndFunct
  intro w
  obtain ⟨hop, -, -, -, -, hfunct, -, -⟩ := fieldsAreTheBitsOfTheWord w
  have hzero : (instructionView w).opcode = 0#6 ↔ w.toNat / 2 ^ 26 = 0 := by rw [BitVec.toNat_eq, hop]; rfl
  have := w.isLt
  simp only [dispatchKey, keyOf_toNat, hzero, hop, hfunct]
  refine ⟨rfl, ?_⟩
  split <;> omega

/-- Settles O27: the lemmas of the four operand forms; the jump field is 26 bits wide before its shift. -/
theorem operandFormsAsNumbers : Obligations.OperandFormsAsNumbers := by
  unfold Obligations.OperandFormsAsNumbers
  refine ⟨fun imm => ⟨sext16_toInt imm, zext16_toNat imm, branchOffset_eq imm⟩, fun address => ?_⟩
  have hjump := jumpField_toNat address
  exact ⟨hjump, by omega⟩
end

section
/-! SUPPORT. Dispatch and run control: when a step is enabled, what a halted block keeps, which effect moves `nPC` away
from the default, and a run that returns as the steps it takes (spec/40_dispatch.md R90, R93, R98 to R100). -/

namespace Sys2Proof.Machine

/-! ### The pair across an instruction -/

/-- An instruction that is no control transfer ends with the default advance (R93). -/
theorem Effect.npc_eq {i : Instr} {s t : State} (h : Effect i s t) (hi : i.isControl = false) :
    t.npc = s.npc + 4#32 := by
  cases h with
  | gpr | hiLo | hi | lo | advance => rfl
  | redirect target hc => rw [hc] at hi; cases hi
  | link r v target hw hc => rw [hc] at hi; cases hi

/-- A completed step moves `nPC` by 4 unless the fetched word is a control transfer (R92, R93, R95). -/
theorem npc_of_step {s t : State} {w : Word} (hf : s.fetch = .ok w) (h : step s = .next t)
    (hc : ∀ i, decode w = .instr i → i.isControl = false) : t.npc = s.npc + 4#32 := by
  obtain ⟨w', hf', ⟨i, hd, hx⟩ | ⟨k, -, rfl⟩⟩ := step_next_cases h
  · cases hf.symm.trans hf'
    exact (effect_of_exec hx).npc_eq (hc i hd)
  · exact State.defaultAdvance_npc s

/-- The six rows of R73, each as a mask and a match. -/
theorem selects_unsettled :
    Selects 0xFC00003F#32 0x00000024#32 (fun _ => .and) ∧ Selects 0xFC00003F#32 0x00000025#32 (fun _ => .or) ∧
    Selects 0xFC00003F#32 0x00000026#32 (fun _ => .xor) ∧ Selects 0xFC00003F#32 0x00000027#32 (fun _ => .nor) ∧
    Selects 0xFC000000#32 0x30000000#32 (fun _ => .andi) ∧ Selects 0xFC000000#32 0x34000000#32 (fun _ => .ori) :=
  ⟨selects_special 0x24#6 _ _ rfl fun _ h => decode_of_key h,
    selects_special 0x25#6 _ _ rfl fun _ h => decode_of_key h,
    selects_special 0x26#6 _ _ rfl fun _ h => decode_of_key h,
    selects_special 0x27#6 _ _ rfl fun _ h => decode_of_key h,
    selects_primary 0x0C#6 _ _ rfl (by decide) fun _ h => decode_of_key h,
    selects_primary 0x0D#6 _ _ rfl (by decide) fun _ h => decode_of_key h⟩

namespace State

/-! ### When a step is enabled -/

/-- The fetch index with the division taken in the integers. -/
theorem index_eq (s : State) : s.index = (s.npc.toNat / 4 : Int) - 1 := by
  rw [index, fetchIndex, Int.natCast_ediv]
  rfl

/-- R90's three conditions. -/
theorem enabled_iff {s : State} :
    s.enabled = true ↔ ∃ p, s.prog = some p ∧ s.stop = none ∧ 0 ≤ s.index ∧ s.index < p.length := by
  unfold enabled
  cases s.prog with
  | none => simp
  | some p => simp [inBounds, index]

/-- The word that the next step fetches, by its index in the bound Program (R91). -/
theorem fetch_of_getElem? {s : State} {p : Program} {f : Nat} {w : Word} (hp : s.prog = some p)
    (hs : s.stop = none) (hi : s.index = f) (hw : p[f]? = some w) : s.fetch = .ok w := by
  refine fetch_ok_iff.2 ⟨hs, ?_⟩
  rw [wordAt, hp, hi]
  exact Memory.wordAt_some_iff.2 ⟨by omega, hw⟩

theorem fetch_error_of_not_enabled {s : State} (h : s.enabled = false) : ∃ why, s.fetch = .error why := by
  cases hf : s.fetch with
  | error why => exact ⟨why, rfl⟩
  | ok w => rw [(enabled_iff_fetch s).2 ⟨w, hf⟩] at h; cases h

/-- Where no step is enabled, `step` names why, and a step of the engine changes nothing (R90). -/
theorem step_of_not_enabled {s : State} (h : s.enabled = false) :
    ∃ why, step s = .refused (.notEnabled why) ∧ s.engineStep = s := by
  obtain ⟨why, hf⟩ := fetch_error_of_not_enabled h
  have hs := step_of_fetch_error hf
  exact ⟨why, hs, by rw [engineStep, hs, afterOutcome_notEnabled]⟩

/-- A step that does not complete leaves the pair (R93, R184, R186). -/
theorem engineStep_pair_of_not_next {s : State} (h : ∀ t, step s ≠ .next t) :
    s.engineStep.pc = s.pc ∧ s.engineStep.npc = s.npc := by
  obtain hn | ⟨why, hr⟩ | he := engineStep_eq_cases s
  · exact absurd hn (h _)
  · rw [hr]
    exact ⟨rfl, rfl⟩
  · rw [he]
    exact ⟨rfl, rfl⟩

/-! ### A halted block -/

/-- A halted block is one that is bound and unstopped but has no step enabled (R30, R90). -/
theorem halted_iff {s : State} : s.Halted ↔ s.prog ≠ none ∧ s.stop = none ∧ s.enabled = false := by
  rw [Halted, ← Bool.not_eq_true, enabled_iff, Option.ne_none_iff_exists']
  constructor
  · rintro ⟨p, hp, hs, hi⟩
    refine ⟨⟨p, hp⟩, hs, ?_⟩
    rintro ⟨p', hp', -, hi'⟩
    cases hp.symm.trans hp'
    exact hi hi'
  · rintro ⟨⟨p, hp⟩, hs, he⟩
    exact ⟨p, hp, hs, fun hi => he ⟨p, hp, hs, hi⟩⟩

/-- `t` is halted, with the program-counter pair of `s`. -/
def HaltedWithPairOf (s t : State) : Prop := t.Halted ∧ t.pc = s.pc ∧ t.npc = s.npc

/-- Only `reset` and an accepted `loadProgram` move the fetch index of a halted block (R100, R206). -/
theorem haltedWithPairOf_call {s : State} {c : HostCall} (h : s.Halted) (hreset : c ≠ .reset)
    (hload : ∀ seq, c = .loadProgram seq → Config.nMax < seq.length) : HaltedWithPairOf s (s.call c).2 := by
  obtain ⟨-, -, he⟩ := halted_iff.1 h
  have hs : HaltedWithPairOf s s := ⟨h, rfl, rfl⟩
  cases c with
  | loadProgram seq =>
    refine acceptOrReject_keeps hs fun t ht => ?_
    obtain ⟨hl, -⟩ := loadProgram?_eq_some_iff.1 ht
    have := hload seq rfl
    omega
  | runProgram fuel => rwa [call_runProgram_state, stepProgram_of_not_enabled fuel he]
  | stepProgram n => rwa [call, stepProgram_of_not_enabled n he]
  | reset => exact absurd rfl hreset
  | setGPR index value =>
    refine acceptOrReject_keeps hs fun t ht => ?_
    obtain ⟨r, -, rfl⟩ := setGpr?_eq_some_iff.1 ht
    exact hs
  | gprValue index => rwa [call_gprValue_state]
  | hi => exact hs
  | lo => exact hs

/-! ### A run that returns -/

/-- A run has returned within its fuel unless a step is enabled after that many steps (R98, R99). -/
theorem runProgram_eq_ite (s : State) (fuel : Nat) :
    s.runProgram fuel = if (s.stepProgram fuel).enabled then none else some (s.stepProgram fuel) := by
  induction fuel generalizing s with
  | zero => rfl
  | succ fuel ih =>
    cases he : s.enabled with
    | true => rw [runProgram_succ_of_enabled _ he, stepProgram_succ_of_enabled _ he, ih]
    | false => simp [runProgram_of_not_enabled _ he, stepProgram_of_not_enabled _ he, he]

theorem runProgram_eq_some_iff {s t : State} {fuel : Nat} :
    s.runProgram fuel = some t ↔ s.stepProgram fuel = t ∧ t.enabled = false := by
  rw [runProgram_eq_ite]
  constructor
  · intro h
    split at h
    · cases h
    · next he =>
      cases h
      exact ⟨rfl, Bool.not_eq_true _ ▸ he⟩
  · rintro ⟨rfl, he⟩
    simp [he]

/-- Every number of steps keeps the binding (R50). -/
theorem stepProgram_prog (s : State) (n : Nat) : (s.stepProgram n).prog = s.prog :=
  stepProgram_keeps (P := fun t => t.prog = s.prog)
    (fun t _ ht => (engineStep_keeps_program_and_slots t).1.trans ht) n rfl

end State

end Sys2Proof.Machine
end

section
/-! CERTIFICATE. Dispatch: what a step runs, when one is enabled, and how a run ends (spec/40_dispatch.md). -/

open Sys2Proof Sys2Proof.Machine

/-- Settles O23: a key in neither list decodes as unmapped, which takes the default advance. -/
theorem unmappedWordOnlyAdvances : Obligations.UnmappedWordOnlyAdvances := by
  unfold Obligations.UnmappedWordOnlyAdvances
  intro s w hf htable hunsettled
  have hd : decode w = .unmapped (dispatchKey w) := decode_eq_unmapped_iff.2 ⟨rfl, htable, hunsettled⟩
  exact ⟨s.defaultAdvance, step_of_unmapped hf hd, jumpsOnly_defaultAdvance s⟩

/-- Settles O30: the three conditions of R90, without which the fetch names a reason and nothing moves. -/
theorem stepIsEnabledExactlyInBounds : Obligations.StepIsEnabledExactlyInBounds := by
  unfold Obligations.StepIsEnabledExactlyInBounds
  intro s
  refine ⟨State.index_eq s ▸ State.enabled_iff, fun hp => by rw [State.enabled, hp], fun he => ?_⟩
  obtain ⟨why, hs, hengine⟩ := State.step_of_not_enabled he
  exact ⟨fun t => by simp [hs], hengine, fun n => State.stepProgram_of_not_enabled n he,
    fun fuel => State.runProgram_of_not_enabled fuel he⟩

/-- Settles O35: the effect of a completed step, the two branches not taken, and the frame of a step that stops. -/
theorem exactlyOnePcUpdatePerCompletedStep : Obligations.ExactlyOnePcUpdatePerCompletedStep := by
  unfold Obligations.ExactlyOnePcUpdatePerCompletedStep
  refine fun s w hf => ⟨fun t h => ⟨pc_of_step h, npc_of_step hf h, fun rs rt imm hd hne => ?_,
    fun rs rt imm hd heq => ?_⟩, State.engineStep_pair_of_not_next⟩
  · rw [step_of_instr hf hd, exec_beq_not_taken imm hne] at h
    cases h
    rfl
  · rw [step_of_instr hf hd, exec_bne_not_taken imm heq] at h
    cases h
    rfl

/-- Settles O51: a run that returns is a number of steps to where no step is enabled, and steps compose. -/
theorem stepThenRunEndsWhereRunEnds : Obligations.StepThenRunEndsWhereRunEnds := by
  unfold Obligations.StepThenRunEndsWhereRunEnds
  refine ⟨State.call_stepProgram_default, fun _ _ => rfl, State.stepProgram_zero, fun _ _ => rfl,
    fun s t k fuel h => ?_, fun s t k fuel h => ?_⟩
  · rwa [State.runProgram_eq_some_iff, State.stepProgram_add, ← State.runProgram_eq_some_iff]
  · obtain ⟨ht, he⟩ := State.runProgram_eq_some_iff.1 h
    refine State.runProgram_eq_some_iff.2 ⟨?_, he⟩
    rw [← State.stepProgram_add, Nat.add_comm, State.stepProgram_add, ht, State.stepProgram_of_not_enabled k he]

/-- Settles O53: a run that returns is a number of steps to where no step is enabled; with the binding kept, such a
state without a stop is the halted one. -/
theorem runEndsExactlyWhereNoStepIsEnabled : Obligations.RunEndsExactlyWhereNoStepIsEnabled := by
  unfold Obligations.RunEndsExactlyWhereNoStepIsEnabled
  refine ⟨fun s t fuel h => ?_, fun s n he => State.runProgram_eq_some_iff.2 ⟨rfl, he⟩,
    fun s he => State.runProgram_of_not_enabled 0 he, fun s t fuel hload h => ?_⟩
  · obtain ⟨ht, he⟩ := State.runProgram_eq_some_iff.1 h
    exact ⟨he, fuel, le_rfl, ht.symm⟩
  · obtain ⟨rfl, he⟩ := State.runProgram_eq_some_iff.1 h
    obtain ⟨hprog, -⟩ := hload
    have hbound : (s.stepProgram fuel).prog ≠ none := State.stepProgram_prog s fuel ▸ hprog
    refine ⟨⟨fun hs => State.halted_iff.2 ⟨hbound, hs, he⟩, fun ⟨_, _, hs, _⟩ => hs⟩, ?_⟩
    cases (s.stepProgram fuel).stop with
    | none => simp
    | some why => cases why <;> simp

/-- Settles O54: in a halted block a run and steps do nothing, and no other call but the two moves `nPC`. -/
theorem haltedStaysHaltedUntilResetOrLoad : Obligations.HaltedStaysHaltedUntilResetOrLoad := by
  unfold Obligations.HaltedStaysHaltedUntilResetOrLoad
  intro s c h hreset hload
  obtain ⟨-, -, he⟩ := State.halted_iff.1 h
  exact ⟨he, State.haltedWithPairOf_call h hreset hload⟩

/-- Settles O19: the six rows of R73, and the step on a word with such a key, which writes the stop record alone. -/
theorem unsettledWordsAreRefused : Obligations.UnsettledWordsAreRefused := by
  unfold Obligations.UnsettledWordsAreRefused
  refine ⟨selects_unsettled, fun s => ⟨rfl, rfl, rfl, rfl, rfl, rfl⟩, fun s w hf hk => ?_⟩
  have hs : step s = .refused (.unsettledKey (dispatchKey w)) := step_of_unsettled hf hk
  rw [State.engineStep, hs, State.afterOutcome_unsettled]
  exact ⟨rfl, stopsWith_recordStop s _, State.recordStop_enabled s _⟩

/-- Settles O29: the index names the fetched word, and the decoder's two cases are the step's. -/
theorem stepRunsTheDecodedInstruction : Obligations.StepRunsTheDecodedInstruction := by
  unfold Obligations.StepRunsTheDecodedInstruction
  intro s p f w hp hstop hi hw
  have hf : s.fetch = .ok w := State.fetch_of_getElem? hp hstop ((State.index_eq s).trans hi) hw
  refine ⟨fun i hd => ⟨step_of_instr hf hd, by rw [State.engineStep, step_of_instr hf hd]⟩, fun k hd => ?_⟩
  have hs := step_of_unmapped hf hd
  exact ⟨s.defaultAdvance, hs, jumpsOnly_defaultAdvance s, State.engineStep_of_next hs⟩
end

section
/-! SUPPORT. Add and subtract (spec/41_alu.md R110 to R116): each of the six meanings as one register write before the
default advance, and that the value written is a result of the general registers alone. -/

namespace Sys2Proof.Machine

/-! ### The shared operation and the six meanings, one equation each -/

theorem writeAndAdvance_writesOnlyGpr (s : State) (r : RegIdx) (v : Word) :
    ∃ t, writeAndAdvance s r v = .next t ∧ WritesOnlyGpr r v s t :=
  ⟨(s.writeGpr r v).defaultAdvance, rfl, writesOnlyGpr_writeGpr_advance s r v⟩

/-- Adding the sign-extended immediate is adding the signed number it reads as (R64, R114). -/
theorem add_sext16 (a : Word) (imm : BitVec 16) : a + sext16 imm = BitVec.ofInt 32 (a.toInt + imm.toInt) := by
  rw [BitVec.ofInt_add, BitVec.ofInt_toInt, ← sext16_toInt, BitVec.ofInt_toInt]

section Meanings
variable (rd rs rt : RegIdx) (imm : BitVec 16) (s : State)

theorem exec_add : exec (.add rd rs rt) s = writeAndAdvance s rd (s.readGpr rs + s.readGpr rt) := rfl

theorem exec_addu : exec (.addu rd rs rt) s = writeAndAdvance s rd (s.readGpr rs + s.readGpr rt) := rfl

theorem exec_sub : exec (.sub rd rs rt) s = writeAndAdvance s rd (s.readGpr rs - s.readGpr rt) := rfl

theorem exec_subu : exec (.subu rd rs rt) s = writeAndAdvance s rd (s.readGpr rs - s.readGpr rt) := rfl

theorem exec_addi : exec (.addi rt rs imm) s =
    writeAndAdvance s rt (BitVec.ofInt 32 ((s.readGpr rs).toInt + imm.toInt)) :=
  congrArg (writeAndAdvance s rt) (add_sext16 (s.readGpr rs) imm)

theorem exec_addiu : exec (.addiu rt rs imm) s =
    writeAndAdvance s rt (BitVec.ofInt 32 ((s.readGpr rs).toInt + imm.toInt)) :=
  congrArg (writeAndAdvance s rt) (add_sext16 (s.readGpr rs) imm)

end Meanings

/-! ### What the six have in common (R116) -/

/-- Every state with the general registers of `s` gets the same value in the one register that the instruction names. -/
def WritesOneFromGprs (i : Instr) (s : State) : Prop :=
  ∃ r v, i.gprWrites = [r] ∧ ∀ s', SameGprs s s' → exec i s' = writeAndAdvance s' r v

theorem writesOneFromGprs_addSub {i : Instr} (s : State)
    (h6 : (∃ a b c, i = .add a b c ∨ i = .addu a b c ∨ i = .sub a b c ∨ i = .subu a b c) ∨
      (∃ a b imm, i = .addi a b imm ∨ i = .addiu a b imm)) : WritesOneFromGprs i s := by
  obtain ⟨rd, rs, rt, rfl | rfl | rfl | rfl⟩ | ⟨rt, rs, imm, rfl | rfl⟩ := h6
  · exact ⟨rd, s.readGpr rs + s.readGpr rt, rfl, fun s' h => by rw [exec_add, h rs, h rt]⟩
  · exact ⟨rd, s.readGpr rs + s.readGpr rt, rfl, fun s' h => by rw [exec_addu, h rs, h rt]⟩
  · exact ⟨rd, s.readGpr rs - s.readGpr rt, rfl, fun s' h => by rw [exec_sub, h rs, h rt]⟩
  · exact ⟨rd, s.readGpr rs - s.readGpr rt, rfl, fun s' h => by rw [exec_subu, h rs, h rt]⟩
  · exact ⟨rt, _, rfl, fun s' h => by rw [exec_addi, h rs]⟩
  · exact ⟨rt, _, rfl, fun s' h => by rw [exec_addiu, h rs]⟩

end Sys2Proof.Machine
end

section
/-! CERTIFICATE. Integer add and subtract (spec/41_alu.md). -/

open Sys2Proof Sys2Proof.Machine

/-- Settles O1: the row of function code 0x20, and the sum as one register write. -/
theorem addWritesWrappedSum : Obligations.AddWritesWrappedSum := by
  unfold Obligations.AddWritesWrappedSum
  refine ⟨selects_special 0x20#6 _ _ rfl fun _ h => decode_of_key h, fun rd rs rt s => ?_⟩
  rw [exec_add]
  exact writeAndAdvance_writesOnlyGpr s rd _

/-- Settles O2: the row of function code 0x21, and the sum as one register write. -/
theorem adduWritesWrappedSum : Obligations.AdduWritesWrappedSum := by
  unfold Obligations.AdduWritesWrappedSum
  refine ⟨selects_special 0x21#6 _ _ rfl fun _ h => decode_of_key h, fun rd rs rt s => ?_⟩
  rw [exec_addu]
  exact writeAndAdvance_writesOnlyGpr s rd _

/-- Settles O3: the row of function code 0x22, and the difference as one register write. -/
theorem subWritesWrappedDifference : Obligations.SubWritesWrappedDifference := by
  unfold Obligations.SubWritesWrappedDifference
  refine ⟨selects_special 0x22#6 _ _ rfl fun _ h => decode_of_key h, fun rd rs rt s => ?_⟩
  rw [exec_sub]
  exact writeAndAdvance_writesOnlyGpr s rd _

/-- Settles O4: the row of function code 0x23, and the difference as one register write. -/
theorem subuWritesWrappedDifference : Obligations.SubuWritesWrappedDifference := by
  unfold Obligations.SubuWritesWrappedDifference
  refine ⟨selects_special 0x23#6 _ _ rfl fun _ h => decode_of_key h, fun rd rs rt s => ?_⟩
  rw [exec_subu]
  exact writeAndAdvance_writesOnlyGpr s rd _

/-- Settles O5: the row of opcode 0x08, and the sum with the signed immediate as one register write. -/
theorem addiWritesWrappedSum : Obligations.AddiWritesWrappedSum := by
  unfold Obligations.AddiWritesWrappedSum
  refine ⟨selects_primary 0x08#6 _ _ rfl (by decide) fun _ h => decode_of_key h, fun rt rs imm s => ?_⟩
  rw [exec_addi]
  exact writeAndAdvance_writesOnlyGpr s rt _

/-- Settles O6: the row of opcode 0x09, and the sum with the signed immediate as one register write. -/
theorem addiuWritesWrappedSum : Obligations.AddiuWritesWrappedSum := by
  unfold Obligations.AddiuWritesWrappedSum
  refine ⟨selects_primary 0x09#6 _ _ rfl (by decide) fun _ h => decode_of_key h, fun rt rs imm s => ?_⟩
  rw [exec_addiu]
  exact writeAndAdvance_writesOnlyGpr s rt _

/-- Settles O40: the equations of a pair have one right side, and the value written comes from the general registers,
which a change of `HI`, `LO` and `PC` leaves as they were. -/
theorem signedAndUnsignedPairsAgree : Obligations.SignedAndUnsignedPairsAgree := by
  unfold Obligations.SignedAndUnsignedPairsAgree
  refine ⟨fun rd rs rt s => ⟨by rw [exec_addu, exec_add], by rw [exec_subu, exec_sub]⟩,
    fun rt rs imm s => by rw [exec_addiu, exec_addi], fun i s h6 => ?_⟩
  obtain ⟨r, v, hw, hexec⟩ := writesOneFromGprs_addSub s h6
  obtain ⟨⟨-, hothers⟩, hhilo, -, -⟩ := writesOnlyGpr_writeGpr_advance s r v
  exact ⟨_, r, hexec s fun _ => rfl, hhilo, hw, hothers,
    fun hi lo pc => ⟨_, hexec { s with hi := hi, lo := lo, pc := pc } fun _ => rfl, fun _ => rfl, rfl, rfl⟩⟩
end

section
/-! SUPPORT. Multiply, divide and the moves (spec/42_muldiv.md R130 to R137): each of the meanings as one write of the
accumulators or of one general register before the default advance, the product that fits, the bounds of the signed
remainder, and what a move from an accumulator delivers. -/

namespace Sys2Proof.Machine

/-! ### The shared operation and the meanings, one equation each -/

theorem writeHiLoAndAdvance_writesOnlyHiLo (s : State) (hi lo : Word) :
    ∃ t, writeHiLoAndAdvance s hi lo = .next t ∧ WritesOnlyHiLo hi lo s t :=
  ⟨((s.writeHi hi).writeLo lo).defaultAdvance, rfl, writesOnlyHiLo_advance s hi lo⟩

section Meanings
variable (rd rs rt : RegIdx) (s : State)

theorem exec_mfhi : exec (.mfhi rd) s = writeAndAdvance s rd s.hi := rfl

theorem exec_mflo : exec (.mflo rd) s = writeAndAdvance s rd s.lo := rfl

/-- `mthi` writes both accumulators, `LO` with the value it holds. -/
theorem exec_mthi : exec (.mthi rs) s = writeHiLoAndAdvance s (s.readGpr rs) s.lo := rfl

/-- `mtlo` writes both accumulators, `HI` with the value it holds. -/
theorem exec_mtlo : exec (.mtlo rs) s = writeHiLoAndAdvance s s.hi (s.readGpr rs) := rfl

theorem exec_mult : exec (.mult rs rt) s = writeHiLoAndAdvance s
    (if (s.readGpr rs * s.readGpr rt).getLsbD 31 then 0xFFFFFFFF#32 else 0x00000000#32)
    (s.readGpr rs * s.readGpr rt) :=
  congrArg₂ (writeHiLoAndAdvance s) (highWord_sext32to64 _) (lowWord_sext32to64 _)

end Meanings

/-! ### The product that fits in 32 bits (R130) -/

/-- A signed product that fits is not changed by the truncation, so its sign extension is the true 64-bit product. -/
theorem sext32to64_mul_of_fits {a b : Word} (hlo : -(2 ^ 31 : Int) ≤ a.toInt * b.toInt)
    (hhi : a.toInt * b.toInt < 2 ^ 31) : sext32to64 (a * b) = BitVec.ofInt 64 (a.toInt * b.toInt) := by
  have hexact : (a * b).toInt = a.toInt * b.toInt := by
    rw [BitVec.toInt_mul]
    apply Int.bmod_eq_of_le <;> omega
  exact congrArg (BitVec.ofInt 64) hexact

/-- The sign fill joined with a word is the word's sign extension. -/
theorem signFill_append (p : Word) :
    ((if p.getLsbD 31 then 0xFFFFFFFF#32 else 0x00000000#32) ++ p : BitVec (32 + 32)) = sext32to64 p := by
  have hjoin := highWord_append_lowWord (sext32to64 p)
  rwa [highWord_sext32to64, lowWord_sext32to64] at hjoin

/-! ### The bounds of the remainders (R131, R132) -/

/-- The remainder of truncated division is smaller than the divisor and is zero or has the dividend's sign. -/
theorem remT_bounds (a : Int) {b : Int} (hb : b ≠ 0) :
    (remT a b).natAbs < b.natAbs ∧ (remT a b = 0 ∨ (remT a b < 0 ↔ a < 0)) := by
  have hmod : remT a b = a.tmod b := (Int.tmod_def a b).symm
  have hnat : (a.tmod b).natAbs = a.natAbs % b.natAbs := Int.natAbs_tmod a b
  have hlt : a.natAbs % b.natAbs < b.natAbs := Nat.mod_lt _ (Int.natAbs_pos.2 hb)
  rw [hmod]
  refine ⟨hnat ▸ hlt, ?_⟩
  rcases Int.lt_or_le a 0 with ha | ha
  · have hneg : 0 ≤ (-a).tmod b := Int.tmod_nonneg b (by omega)
    rw [Int.neg_tmod] at hneg
    omega
  · have hpos : 0 ≤ a.tmod b := Int.tmod_nonneg b ha
    omega

/-- Where `div` completes, quotient and remainder give back the dividend, and the remainder is bounded (R131). -/
theorem div_results {a b : Word} (hb : b ≠ 0#32) (ho : ¬ (a = 0x80000000#32 ∧ b = 0xFFFFFFFF#32)) :
    a.toInt = b.toInt * (divQuotient a b).toInt + (divRemainder a b).toInt ∧
      (divRemainder a b).toInt.natAbs < b.toInt.natAbs ∧
      ((divRemainder a b).toInt = 0 ∨ ((divRemainder a b).toInt < 0 ↔ a.toInt < 0)) := by
  have hquot : (divQuotient a b).toInt = quotT a.toInt b.toInt := divQuotient_toInt hb ho
  have hrem : (divRemainder a b).toInt = remT a.toInt b.toInt := divRemainder_toInt hb
  rw [hquot, hrem]
  exact ⟨(add_sub_cancel _ _).symm, remT_bounds a.toInt (toInt_ne_zero hb)⟩

theorem divuRemainder_lt (a : Word) {b : Word} (hb : b ≠ 0#32) : (divuRemainder a b).toNat < b.toNat := by
  have hpos : 0 < b.toNat := Nat.pos_of_ne_zero fun h => hb (BitVec.eq_of_toNat_eq h)
  rw [divuRemainder_toNat, ← Nat.mod_eq_sub_mul_div]
  exact Nat.mod_lt _ hpos

/-! ### A division that faults, and a move from an accumulator -/

/-- A meaning that faults writes the stop record alone (R184). -/
theorem stopsWith_of_fault {o : StepResult} {r : Fault} (s : State) (h : o = .fault r) :
    o = .fault r ∧ StopsWith (.fault r) s (s.afterOutcome o) := by
  subst h
  exact ⟨rfl, stopsWith_recordStop s (.fault r)⟩

/-- `mfhi` delivers the `HI` of the state it runs in, whatever wrote it (R133, R137). -/
theorem exec_mfhi_delivers (rd : RegIdx) (t : State) :
    ∃ u, exec (.mfhi rd) t = .next u ∧ u.readGpr rd = t.hi := by
  obtain ⟨u, hu, ⟨hrd, -⟩, -⟩ := writeAndAdvance_writesOnlyGpr t rd t.hi
  exact ⟨u, (exec_mfhi rd t).trans hu, hrd⟩

/-- `mflo` delivers the `LO` of the state it runs in, whatever wrote it (R135, R137). -/
theorem exec_mflo_delivers (rd : RegIdx) (t : State) :
    ∃ u, exec (.mflo rd) t = .next u ∧ u.readGpr rd = t.lo := by
  obtain ⟨u, hu, ⟨hrd, -⟩, -⟩ := writeAndAdvance_writesOnlyGpr t rd t.lo
  exact ⟨u, (exec_mflo rd t).trans hu, hrd⟩

section ThenMove
variable {i : Instr} {s : State} {hi lo : Word} (rd : RegIdx)
  (h : exec i s = writeHiLoAndAdvance s hi lo)
include h

/-- `mfhi` right after a writer of the accumulators sees the `HI` it wrote (R137). -/
theorem mfhi_after_writeHiLo : ∃ t u, exec i s = .next t ∧ exec (.mfhi rd) t = .next u ∧ u.readGpr rd = hi := by
  obtain ⟨t, ht, hhi, -⟩ := writeHiLoAndAdvance_writesOnlyHiLo s hi lo
  obtain ⟨u, hu, hrd⟩ := exec_mfhi_delivers rd t
  exact ⟨t, u, h.trans ht, hu, hrd.trans hhi⟩

/-- `mflo` right after a writer of the accumulators sees the `LO` it wrote (R137). -/
theorem mflo_after_writeHiLo : ∃ t u, exec i s = .next t ∧ exec (.mflo rd) t = .next u ∧ u.readGpr rd = lo := by
  obtain ⟨t, ht, -, hlo, -⟩ := writeHiLoAndAdvance_writesOnlyHiLo s hi lo
  obtain ⟨u, hu, hrd⟩ := exec_mflo_delivers rd t
  exact ⟨t, u, h.trans ht, hu, hrd.trans hlo⟩

end ThenMove

end Sys2Proof.Machine
end

section
/-! CERTIFICATE. Multiply, divide and the moves to and from `HI` and `LO` (spec/42_muldiv.md). -/

open Sys2Proof Sys2Proof.Machine

/-- Settles O7: the row of function code 0x18, the write of the sign fill and the product, and their join, which is the
true product when that fits. -/
theorem multWritesSignFilledProduct : Obligations.MultWritesSignFilledProduct := by
  unfold Obligations.MultWritesSignFilledProduct
  refine ⟨selects_special 0x18#6 _ _ rfl fun _ h => decode_of_key h, fun rs rt s => ?_⟩
  rw [exec_mult]
  obtain ⟨t, ht, hw⟩ := writeHiLoAndAdvance_writesOnlyHiLo s _ (s.readGpr rs * s.readGpr rt)
  refine ⟨t, ht, hw, fun hmin hmax => ?_⟩
  obtain ⟨hhi, hlo, -⟩ := hw
  rw [hhi, hlo]
  exact (signFill_append _).trans (sext32to64_mul_of_fits hmin hmax)

/-- Settles O8: the row of function code 0x1A, and the three cases of the operand pair; where the division completes,
the facts are those of truncated division. -/
theorem divWritesTruncatedQuotientOrFaults : Obligations.DivWritesTruncatedQuotientOrFaults := by
  unfold Obligations.DivWritesTruncatedQuotientOrFaults
  refine ⟨selects_special 0x1A#6 _ _ rfl fun _ h => decode_of_key h, fun rs rt s => ⟨fun hb => ?_,
    fun ha hb => ?_, fun hb ho => ?_⟩⟩
  · exact stopsWith_of_fault s (exec_div_zero hb)
  · exact stopsWith_of_fault s (exec_div_overflow ha hb)
  · exact ⟨_, exec_div_next hb ho, writesOnlyHiLo_advance s _ _, div_results hb ho⟩

/-- Settles O9: the row of function code 0x1B, and the two cases of the divisor. -/
theorem divuWritesQuotientOrFaults : Obligations.DivuWritesQuotientOrFaults := by
  unfold Obligations.DivuWritesQuotientOrFaults
  refine ⟨selects_special 0x1B#6 _ _ rfl fun _ h => decode_of_key h, fun rs rt s => ⟨fun hb => ?_,
    fun hb => ?_⟩⟩
  · exact stopsWith_of_fault s (exec_divu_zero hb)
  · exact ⟨_, exec_divu_next hb, writesOnlyHiLo_advance s _ _, divuQuotient_toNat _ _, divuRemainder_toNat _ _,
      divuRemainder_lt _ hb⟩

/-- Settles O10: the row of function code 0x10, and the copy of `HI` as one register write. -/
theorem mfhiCopiesHi : Obligations.MfhiCopiesHi := by
  unfold Obligations.MfhiCopiesHi
  refine ⟨selects_special 0x10#6 _ _ rfl fun _ h => decode_of_key h, fun rd s => ?_⟩
  rw [exec_mfhi]
  exact writeAndAdvance_writesOnlyGpr s rd s.hi

/-- Settles O11: the row of function code 0x11, and the copy to `HI` as a write of both accumulators that leaves `LO`. -/
theorem mthiWritesHi : Obligations.MthiWritesHi := by
  unfold Obligations.MthiWritesHi
  refine ⟨selects_special 0x11#6 _ _ rfl fun _ h => decode_of_key h, fun rs s => ?_⟩
  rw [exec_mthi]
  exact writeHiLoAndAdvance_writesOnlyHiLo s _ s.lo

/-- Settles O12: the row of function code 0x12, and the copy of `LO` as one register write. -/
theorem mfloCopiesLo : Obligations.MfloCopiesLo := by
  unfold Obligations.MfloCopiesLo
  refine ⟨selects_special 0x12#6 _ _ rfl fun _ h => decode_of_key h, fun rd s => ?_⟩
  rw [exec_mflo]
  exact writeAndAdvance_writesOnlyGpr s rd s.lo

/-- Settles O13: the row of function code 0x13, and the copy to `LO` as a write of both accumulators that leaves `HI`. -/
theorem mtloWritesLo : Obligations.MtloWritesLo := by
  unfold Obligations.MtloWritesLo
  refine ⟨selects_special 0x13#6 _ _ rfl fun _ h => decode_of_key h, fun rs s => ?_⟩
  rw [exec_mtlo]
  exact writeHiLoAndAdvance_writesOnlyHiLo s s.hi _

/-- Settles O41: every writer is one write of both accumulators, which the move of the next step delivers. -/
theorem hiLoResultsAreSeenByTheNextInstruction : Obligations.HiLoResultsAreSeenByTheNextInstruction := by
  unfold Obligations.HiLoResultsAreSeenByTheNextInstruction
  intro s rs rt rd
  refine ⟨mfhi_after_writeHiLo rd (exec_mthi rs s), mflo_after_writeHiLo rd (exec_mtlo rs s),
    mflo_after_writeHiLo rd (exec_mult rs rt s), mfhi_after_writeHiLo rd (exec_mult rs rt s), fun _ t _ _ => ?_⟩
  obtain ⟨u, hu, hhi⟩ := exec_mfhi_delivers rd t
  obtain ⟨u', hu', hlo⟩ := exec_mflo_delivers rd t
  exact ⟨u, u', hu, hhi, hu', hlo⟩
end

section
/-! SUPPORT. Branches and jumps (spec/43_control.md R150 to R157): each meaning as one update of the pair, and the
word index that each target leads to. -/

namespace Sys2Proof.Machine

/-! ### The meanings, one equation each -/

theorem exec_j (address : BitVec 26) (s : State) :
    exec (.j address) s = .next (s.redirect (jumpTarget s.pc address)) := rfl

theorem exec_jal (address : BitVec 26) (s : State) :
    exec (.jal address) s = .next ((s.writeGpr 31 (s.pc + 4#32)).redirect (jumpTarget s.pc address)) := rfl

theorem exec_jr (rs : RegIdx) (s : State) :
    exec (.jr rs) s = .next (s.redirect (s.readGpr rs + 4#32)) := rfl

section Pairs
variable {i : Instr} {rs rt : RegIdx} {imm : BitVec 16} {address : BitVec 26} {s : State}

/-- The two branches do the same when taken (R150, R151). -/
theorem exec_branch_taken (h : (i = .beq rs rt imm ∧ s.readGpr rs = s.readGpr rt) ∨
    (i = .bne rs rt imm ∧ s.readGpr rs ≠ s.readGpr rt)) :
    exec i s = .next (s.redirect (branchTarget s.npc imm)) := by
  obtain ⟨rfl, heq⟩ | ⟨rfl, hne⟩ := h
  · exact exec_beq_taken imm heq
  · exact exec_bne_taken imm hne

/-- The two branches do the same when not taken (R150, R151). -/
theorem exec_branch_not_taken (h : (i = .beq rs rt imm ∧ s.readGpr rs ≠ s.readGpr rt) ∨
    (i = .bne rs rt imm ∧ s.readGpr rs = s.readGpr rt)) : exec i s = .next s.defaultAdvance := by
  obtain ⟨rfl, hne⟩ | ⟨rfl, heq⟩ := h
  · exact exec_beq_not_taken imm hne
  · exact exec_bne_not_taken imm heq

/-- `j` and `jal` complete with one target (R152, R153). -/
theorem exec_jump_npc (h : i = .j address ∨ i = .jal address) :
    ∃ t, exec i s = .next t ∧ t.npc = jumpTarget s.pc address := by
  obtain rfl | rfl := h
  · exact ⟨_, exec_j address s, rfl⟩
  · exact ⟨_, exec_jal address s, rfl⟩

end Pairs

/-! ### The frames of a taken branch and of a link -/

theorem branchTarget_eq (v : Word) (imm : BitVec 16) :
    branchTarget v imm = v + 4#32 + BitVec.ofInt 32 (4 * imm.toInt) := by
  rw [branchTarget, branchOffset_eq]

theorem jumpsOnly_branch_taken (s : State) (imm : BitVec 16) :
    JumpsOnly (s.npc + 4#32 + BitVec.ofInt 32 (4 * imm.toInt)) s (s.redirect (branchTarget s.npc imm)) :=
  branchTarget_eq s.npc imm ▸ jumpsOnly_redirect s _

/-- A link and a jump write one general register and the pair. -/
theorem gprBecomes_writeGpr_redirect (s : State) (r : RegIdx) (v target : Word) :
    GprBecomes r v s ((s.writeGpr r v).redirect target) :=
  ⟨by simp, fun q hq => by simp [State.readGpr_writeGpr_of_ne _ _ hq]⟩

/-! ### The word index of a target -/

/-- Four bytes on is the next word, unless `nPC` wraps. -/
theorem fetchIndex_add_four {v : Word} (h : v.toNat ≤ 0xFFFFFFFB) : fetchIndex (v + 4#32) = fetchIndex v + 1 := by
  have hsum : (v + 4#32).toNat = v.toNat + 4 := by
    rw [BitVec.toNat_add, BitVec.toNat_ofNat]
    omega
  rw [fetchIndex, fetchIndex, hsum]
  omega

/-- The index that a plain address leads to once it is biased (R154, R157): -1 where the bias wraps. -/
theorem fetchIndex_plain_add_four (g : Word) :
    fetchIndex (g + 4#32) = if g.toNat ≤ 0xFFFFFFFB then (g.toNat / 4 : Int) else -1 := by
  split
  · next h =>
    rw [fetchIndex_add_four h, fetchIndex]
    omega
  · next h =>
    refine (fetchIndex_eq_iff _ _).2 ?_
    rw [BitVec.toNat_add, BitVec.toNat_ofNat]
    omega

/-- The plain address of a jump: the region and the field do not overlap (R152). -/
theorem jumpRegion_add_jumpField_toNat (pcOld : Word) (address : BitVec 26) :
    (jumpRegion pcOld + jumpField address).toNat = pcOld.toNat / 2 ^ 28 * 2 ^ 28 + 4 * address.toNat := by
  rw [BitVec.toNat_add, jumpRegion_toNat, jumpField_toNat]
  omega

/-- The index that `j` and `jal` lead to (R152, R155): -1 for the last word of the last region. -/
theorem fetchIndex_jumpTarget (pcOld : Word) (address : BitVec 26) :
    fetchIndex (jumpTarget pcOld address) =
      if pcOld.toNat / 2 ^ 28 = 15 ∧ address = 0x3FFFFFF#26 then -1
      else (pcOld.toNat / 2 ^ 28 * 2 ^ 26 + address.toNat : Int) := by
  have hlast : address = 0x3FFFFFF#26 ↔ address.toNat = 0x3FFFFFF := BitVec.toNat_eq
  simp only [jumpTarget_eq, fetchIndex_plain_add_four, jumpRegion_add_jumpField_toNat, hlast]
  split <;> split <;> omega

theorem branchTarget_toNat (v : Word) (imm : BitVec 16) :
    ((branchTarget v imm).toNat : Int) = (v.toNat + 4 + 4 * imm.toInt) % 2 ^ 32 := by
  rw [branchTarget_eq, BitVec.toNat_add, BitVec.toNat_add, BitVec.toNat_ofInt, BitVec.toNat_ofNat]
  omega

/-- A branch to an index that is not negative reaches it (R155). -/
theorem fetchIndex_branchTarget {v : Word} {imm : BitVec 16} (hv : fetchIndex v < 2 ^ 29 - 1)
    (h : 0 ≤ fetchIndex v + 1 + imm.toInt) : fetchIndex (branchTarget v imm) = fetchIndex v + 1 + imm.toInt := by
  have himm := @BitVec.toInt_lt _ imm
  rw [fetchIndex_eq_iff, branchTarget_toNat]
  unfold fetchIndex at *
  omega

/-- A branch to a negative index leaves every Program: `nPC` wraps to below 4 or past the longest one (log entry 6). -/
theorem inBounds_branchTarget_of_neg {v : Word} {imm : BitVec 16} {n : Nat} (hn : n ≤ 2 ^ 29 - 1)
    (h : fetchIndex v + 1 + imm.toInt < 0) : inBounds n (branchTarget v imm) = false := by
  have himm := BitVec.le_toInt imm
  have hwrap := branchTarget_toNat v imm
  rw [← Bool.not_eq_true, inBounds_iff]
  unfold fetchIndex at h
  omega

namespace State

/-- Where `nPC` moves by 4 inside the longest Program, the next word follows (R92, R155). -/
theorem index_of_npc_add_four {s t : State} (hs : s.index < 2 ^ 29 - 1) (h : t.npc = s.npc + 4#32) :
    t.index = s.index + 1 := by
  have hlow : (s.npc.toNat : Int) < 4 * (2 ^ 29 - 1 + 1) := (fetchIndex_lt_iff s.npc _).1 hs
  rw [index, h, fetchIndex_add_four (by omega), index]

/-- A completed step to the index of a word of the Program fetches that word next, and `PC` lags it (R156). -/
theorem fetch_after_step {s t : State} {p : Program} {g : Nat} {w : Word} (hp : s.prog = some p)
    (hs : s.stop = none) (h : step s = .next t) (hi : t.index = g) (hw : p[g]? = some w) :
    t.fetch = .ok w ∧ t.pc = s.npc := by
  obtain ⟨hprog, -, hstop, -, -⟩ := sameEngine_of_step h
  exact ⟨fetch_of_getElem? (hprog.trans hp) (hstop.trans hs) hi hw, pc_of_step h⟩

end State

end Sys2Proof.Machine
end

section
/-! CERTIFICATE. Branches and jumps (spec/43_control.md). -/

open Sys2Proof Sys2Proof.Machine

/-- Settles O44: each update of the pair leads to the index of its target; one before word 0 wraps out of bounds. -/
theorem nextWordExecuted : Obligations.NextWordExecuted := by
  unfold Obligations.NextWordExecuted
  intro s p f hp hlen hf hlt
  have hmax : s.index < 2 ^ 29 - 1 := by omega
  have hadvance : ∀ t : State, t.npc = s.npc + 4#32 → t.index = f + 1 := fun t ht =>
    hf ▸ State.index_of_npc_add_four hmax ht
  refine ⟨fun i t hc hx => hadvance t ((effect_of_exec hx).npc_eq hc), hadvance _ rfl,
    fun rs rt imm i t hnot hx => ?_, fun rs rt imm i t htaken hx => ?_, fun address i t hjump hx => ?_,
    fun rs t hx => ?_⟩
  · cases (exec_branch_not_taken hnot).symm.trans hx
    exact hadvance _ rfl
  · cases (exec_branch_taken htaken).symm.trans hx
    rw [← hf]
    exact ⟨fetchIndex_branchTarget hmax, inBounds_branchTarget_of_neg hlen⟩
  · obtain ⟨t', hx', hnpc⟩ := exec_jump_npc (s := s) hjump
    cases hx'.symm.trans hx
    rw [State.index, hnpc, fetchIndex_jumpTarget]
  · cases (exec_jr rs s).symm.trans hx
    exact fetchIndex_plain_add_four (s.readGpr rs)

/-- Settles O45: the index of the target is the table's, as none of the wraps ends in the Program. -/
theorem noDelaySlotWordExecutes : Obligations.NoDelaySlotWordExecutes := by
  unfold Obligations.NoDelaySlotWordExecutes
  intro s t p f g w w' hp hlen hstop hf hw hw' hstep htransfer
  have hfetch : s.fetch = .ok w := State.fetch_of_getElem? hp hstop hf hw
  have hflt : f < p.length := (List.getElem?_eq_some_iff.1 hw).1
  have hglt : g < p.length := (List.getElem?_eq_some_iff.1 hw').1
  have hexec : ∀ i, decode w = .instr i → exec i s = .next t := fun i hd => step_of_instr hfetch hd ▸ hstep
  obtain ⟨-, -, -, hbranch, hjump, hjr⟩ := nextWordExecuted s p f hp hlen hf hflt
  refine State.fetch_after_step hp hstop hstep ?_ hw'
  obtain ⟨rs, rt, imm, htaken, hg⟩ | ⟨address, hd, hg⟩ | ⟨rs, hd, hg⟩ := htransfer
  · have htarget : 0 ≤ (f : Int) + 1 + imm.toInt := by omega
    rw [hg]
    obtain ⟨hd, heq⟩ | ⟨hd, hne⟩ := htaken
    · exact (hbranch rs rt imm _ t (.inl ⟨rfl, heq⟩) (hexec _ hd)).1 htarget
    · exact (hbranch rs rt imm _ t (.inr ⟨rfl, hne⟩) (hexec _ hd)).1 htarget
  · have hi := hd.elim (fun hd => hjump address _ t (.inl rfl) (hexec _ hd))
      (fun hd => hjump address _ t (.inr rfl) (hexec _ hd))
    have hnowrap : ¬ (s.pc.toNat / 2 ^ 28 = 15 ∧ address = 0x3FFFFFF#26) := fun ⟨hr, _⟩ => by omega
    rw [hi, if_neg hnowrap]
    omega
  · rw [hjr rs t (hexec _ hd), if_pos (by omega)]
    omega

/-- Settles O46: the link and the bias are four bytes each, so the return is two words past the one `PC` named. -/
theorem jrAfterJalResumesByOldPc : Obligations.JrAfterJalResumesByOldPc := by
  unfold Obligations.JrAfterJalResumesByOldPc
  intro s address hpc
  obtain ⟨hlink, -⟩ := gprBecomes_writeGpr_redirect s 31 (s.pc + 4#32) (jumpTarget s.pc address)
  refine ⟨_, exec_jal address s, hlink, fun u hu => ⟨_, exec_jr 31 u, ?_⟩⟩
  have hnext : fetchIndex (s.pc + 4#32) = fetchIndex s.pc + 1 := fetchIndex_add_four (by omega)
  have hlt : (s.pc + 4#32).toNat ≤ 0xFFFFFFFB := by rw [BitVec.toNat_add, BitVec.toNat_ofNat]; omega
  have hreturn : (u.redirect (u.readGpr 31 + 4#32)).index = fetchIndex s.pc + 2 := by
    rw [State.index, State.redirect_npc, hu, hlink, fetchIndex_add_four hlt, hnext]
    omega
  refine ⟨hreturn, fun hseq => ?_, fun hreset => ?_⟩
  · rw [hreturn, State.index, hseq, hnext]
    omega
  · rw [hreturn, hreset]
    decide

/-- Settles O47: the invariant's bound on `PC` is below the first region's end, so the region bits are 0. -/
theorem shortProgramsHaveRegionZero : Obligations.ShortProgramsHaveRegionZero := by
  unfold Obligations.ShortProgramsHaveRegionZero
  intro s p hinv hp hlen
  have hpc : s.pc.toNat < 2 ^ 28 := by
    obtain hreset | ⟨p', hp', -, hle⟩ := hinv.pcRange
    · rw [hreset]
      decide
    · cases hp.symm.trans hp'
      omega
  refine ⟨hpc, fun address i hjump => ?_⟩
  obtain ⟨t, hx, hnpc⟩ := exec_jump_npc (s := s) hjump
  have hregion : s.pc.toNat / 2 ^ 28 = 0 := Nat.div_eq_of_lt hpc
  refine ⟨t, hx, ?_⟩
  rw [State.index, hnpc, fetchIndex_jumpTarget, if_neg (by omega)]
  omega

/-- Settles O14: the row of opcode 0x04, and the two cases of the comparison. -/
theorem beqBranchesWhenEqual : Obligations.BeqBranchesWhenEqual := by
  unfold Obligations.BeqBranchesWhenEqual
  exact ⟨selects_primary 0x04#6 _ _ rfl (by decide) fun _ h => decode_of_key h, fun rs rt imm s =>
    ⟨fun heq => ⟨_, exec_beq_taken imm heq, jumpsOnly_branch_taken s imm⟩,
      fun hne => ⟨_, exec_beq_not_taken imm hne, jumpsOnly_defaultAdvance s⟩⟩⟩

/-- Settles O15: the row of opcode 0x05, and the two cases of the comparison. -/
theorem bneBranchesWhenNotEqual : Obligations.BneBranchesWhenNotEqual := by
  unfold Obligations.BneBranchesWhenNotEqual
  exact ⟨selects_primary 0x05#6 _ _ rfl (by decide) fun _ h => decode_of_key h, fun rs rt imm s =>
    ⟨fun hne => ⟨_, exec_bne_taken imm hne, jumpsOnly_branch_taken s imm⟩,
      fun heq => ⟨_, exec_bne_not_taken imm heq, jumpsOnly_defaultAdvance s⟩⟩⟩

/-- Settles O16: the row of opcode 0x02, and the redirection to the region's target. -/
theorem jumpSetsRegionTarget : Obligations.JumpSetsRegionTarget := by
  unfold Obligations.JumpSetsRegionTarget
  exact ⟨selects_primary 0x02#6 _ _ rfl (by decide) fun _ h => decode_of_key h, fun address s =>
    ⟨_, exec_j address s, jumpsOnly_redirect s (jumpTarget s.pc address)⟩⟩

/-- Settles O17: the row of opcode 0x03, the link as one register write, and the redirection of `j`. -/
theorem jalLinksOldPcPlusFourAndJumps : Obligations.JalLinksOldPcPlusFourAndJumps := by
  unfold Obligations.JalLinksOldPcPlusFourAndJumps
  refine ⟨selects_primary 0x03#6 _ _ rfl (by decide) fun _ h => decode_of_key h, fun address s =>
    ⟨_, exec_jal address s, gprBecomes_writeGpr_redirect s 31 _ _, ⟨rfl, rfl⟩, ⟨rfl, rfl⟩, ?_⟩⟩
  exact (effect_of_exec (exec_jal address s)).sameEngine

/-- Settles O18: the row of function code 0x08, and the redirection to the biased register. -/
theorem jrJumpsToPlainAddress : Obligations.JrJumpsToPlainAddress := by
  unfold Obligations.JrJumpsToPlainAddress
  exact ⟨selects_special 0x08#6 _ _ rfl fun _ h => decode_of_key h, fun rs s =>
    ⟨_, exec_jr rs s, jumpsOnly_redirect s _⟩⟩
end

section
/-! SUPPORT. Stops (spec/60_exceptions.md R181 to R187): which divisions fault, that a fault needs an enabled step, and
what the host's calls do where no step is enabled (R185, R204, R205). -/

namespace Sys2Proof.Machine

/-! ### Which steps fault -/

/-- R182: either division, on a zero divisor. -/
theorem step_divideByZero_iff {s : State} : step s = .fault .divideByZero ↔ ∃ w rs rt, s.fetch = .ok w ∧
    (decode w = .instr (.div rs rt) ∨ decode w = .instr (.divu rs rt)) ∧ s.readGpr rt = 0#32 := by
  constructor
  · intro h
    obtain ⟨w, i, hf, hd, hx⟩ := step_fault_cases h
    obtain ⟨rs, rt, rfl, hz, -⟩ | ⟨rs, rt, -, -, -, hr⟩ | ⟨rs, rt, rfl, hz, -⟩ := exec_fault_cases hx
    · exact ⟨w, rs, rt, hf, .inl hd, hz⟩
    · cases hr
    · exact ⟨w, rs, rt, hf, .inr hd, hz⟩
  · rintro ⟨w, rs, rt, hf, hd | hd, hz⟩
    · exact (step_of_instr hf hd).trans (exec_div_zero hz)
    · exact (step_of_instr hf hd).trans (exec_divu_zero hz)

/-- R183: the signed division alone, on the one quotient that does not fit. -/
theorem step_divideOverflow_iff {s : State} : step s = .fault .divideOverflow ↔ ∃ w rs rt, s.fetch = .ok w ∧
    decode w = .instr (.div rs rt) ∧ s.readGpr rs = 0x80000000#32 ∧ s.readGpr rt = 0xFFFFFFFF#32 := by
  constructor
  · intro h
    obtain ⟨w, i, hf, hd, hx⟩ := step_fault_cases h
    obtain ⟨rs, rt, -, -, hr⟩ | ⟨rs, rt, rfl, ha, hb, -⟩ | ⟨rs, rt, -, -, hr⟩ := exec_fault_cases hx
    · cases hr
    · exact ⟨w, rs, rt, hf, hd, ha, hb⟩
    · cases hr
  · rintro ⟨w, rs, rt, hf, hd, ha, hb⟩
    exact (step_of_instr hf hd).trans (exec_div_overflow ha hb)

/-- Every register is one a host can name (R204, R205). -/
theorem hostReg?_val (r : RegIdx) : hostReg? r.val = some r := by
  have hr : (0 : Int) ≤ r.val ∧ (r.val : Int) < 32 := by omega
  rw [hostReg?, dif_pos hr]
  rfl

namespace State

theorem enabled_of_step_fault {s : State} {r : Fault} (h : step s = .fault r) : s.enabled = true := by
  obtain ⟨w, -, hf, -⟩ := step_fault_cases h
  exact (enabled_iff_fetch s).2 ⟨w, hf⟩

/-- R181's states without a step: no Program, the index outside it, or a recorded stop. -/
theorem idle_or_halted_or_stopped {s : State} (h : s.enabled = false) :
    s.Idle ∨ s.Halted ∨ ∃ why, s.stop = some why := by
  by_cases hp : s.prog = none
  · exact .inl hp
  · cases hs : s.stop with
    | none => exact .inr (.inl (halted_iff.2 ⟨hp, hs, h⟩))
    | some why => exact .inr (.inr ⟨why, rfl⟩)

/-! ### What the host's calls do -/

theorem call_setGPR_val (s : State) (r : RegIdx) (v : Word) :
    s.call (.setGPR r.val v) = (.returned, s.writeGpr r v) := by
  rw [call, setGpr?_eq_some_iff.2 ⟨r, rfl, rfl⟩, acceptOrReject]

theorem call_gprValue_val (s : State) (r : RegIdx) :
    s.call (.gprValue r.val) = (.value (s.readGpr r).toInt, s) := by
  simp only [call, gprValue?, hostReg?_val, Option.map_some]

/-- Where no step is enabled, a call that is neither `reset` nor an accepted `loadProgram` does nothing but write the
register that `setGPR` names (R90, R98, R99, R203 to R205). -/
theorem call_of_not_enabled {s : State} {c : HostCall} (h : s.enabled = false) (hreset : c ≠ .reset)
    (hload : ∀ seq, c = .loadProgram seq → Config.nMax < seq.length) :
    (s.call c).2 = s ∨ ∃ r v, (s.call c).2 = s.writeGpr r v := by
  cases c with
  | loadProgram seq =>
    refine .inl (acceptOrReject_keeps (P := (· = s)) rfl fun t ht => ?_)
    obtain ⟨hl, -⟩ := loadProgram?_eq_some_iff.1 ht
    exact absurd (hload seq rfl) (Nat.not_lt.2 hl)
  | runProgram fuel => exact .inl (by rw [call_runProgram_state, stepProgram_of_not_enabled fuel h])
  | stepProgram n => exact .inl (stepProgram_of_not_enabled n h)
  | reset => exact absurd rfl hreset
  | setGPR index value =>
    refine acceptOrReject_keeps (P := fun t => t = s ∨ ∃ r v, t = s.writeGpr r v) (.inl rfl) fun t ht => ?_
    obtain ⟨r, -, rfl⟩ := setGpr?_eq_some_iff.1 ht
    exact .inr ⟨r, value, rfl⟩
  | gprValue index => exact .inl (call_gprValue_state s index)
  | hi => exact .inl rfl
  | lo => exact .inl rfl

end State

end Sys2Proof.Machine
end

section
/-! CERTIFICATE. Stops: how a step ends, which steps fault, and what a recorded stop survives
(spec/60_exceptions.md). -/

open Sys2Proof Sys2Proof.Machine

/-- Settles O31: the three ends of a step on the fetched word, and the three reasons that none is enabled. -/
theorem enabledStepEndsInOneOfThreeWays : Obligations.EnabledStepEndsInOneOfThreeWays := by
  unfold Obligations.EnabledStepEndsInOneOfThreeWays
  refine ⟨fun s he => ?_, fun s he => ?_⟩
  · obtain ⟨w, hf⟩ := (State.enabled_iff_fetch s).1 he
    obtain ⟨t, hs, ht⟩ | ⟨r, hs, ht⟩ | ⟨hs, hk, ht⟩ := State.engineStep_cases hf
    · exact .inl ⟨t, hs, ht, (sameEngine_of_step hs).stop.trans (State.fetch_ok_iff.1 hf).1⟩
    · refine .inr (.inl ⟨r, by cases r <;> simp, hs, ?_⟩)
      rw [ht]
      exact stopsWith_recordStop s (.fault r)
    · refine .inr (.inr ⟨w, hf, hk, hs, ?_⟩)
      rw [ht]
      exact stopsWith_recordStop s (.refuse (dispatchKey w))
  · obtain hidle | hhalted | ⟨⟨r⟩ | ⟨k⟩, hs⟩ := State.idle_or_halted_or_stopped he
    · exact .inl hidle
    · exact .inr (.inl hhalted)
    · exact .inr (.inr (.inl ⟨r, hs⟩))
    · exact .inr (.inr (.inr ⟨k, hs⟩))

/-- Settles O32: a step faults as the instruction it fetched, and recording the fault leaves `nPC` and the store. -/
theorem onlyDivisionFaults : Obligations.OnlyDivisionFaults := by
  unfold Obligations.OnlyDivisionFaults
  refine fun s => ⟨step_divideByZero_iff, step_divideOverflow_iff, fun r h => ?_⟩
  rw [State.engineStep_of_fault h]
  exact ⟨rfl, rfl, rfl⟩

/-- Settles O33: the faulting step records its stop and nothing else, and with a stop recorded a run is over. -/
theorem faultEntryIsPrecise : Obligations.FaultEntryIsPrecise := by
  unfold Obligations.FaultEntryIsPrecise
  intro s r h
  have hstep : s.engineStep = s.recordStop (.fault r) := State.engineStep_of_fault h
  have he : s.enabled = true := State.enabled_of_step_fault h
  have hend : s.engineStep.enabled = false := hstep ▸ State.recordStop_enabled s (.fault r)
  refine ⟨hstep ▸ stopsWith_recordStop s (.fault r), hend, fun n => ?_, fun fuel => ?_⟩
  · rw [State.stepProgram_succ_of_enabled n he, State.stepProgram_of_not_enabled n hend]
  · rw [State.runProgram_succ_of_enabled fuel he, State.runProgram_of_not_enabled fuel hend]

/-- Settles O34: with a stop recorded no step is enabled, so no call but the two does more than write a register. -/
theorem recordedStopStaysUntilResetOrLoad : Obligations.RecordedStopStaysUntilResetOrLoad := by
  unfold Obligations.RecordedStopStaysUntilResetOrLoad
  refine fun s why hs => ⟨rfl, fun seq hl => ?_, fun c hreset hload => ?_, fun r v => ?_, fun r => ?_, rfl, rfl⟩
  · rw [State.call_loadProgram_of_le s hl]
    rfl
  · obtain hc | ⟨r, v, hc⟩ := State.call_of_not_enabled (State.not_enabled_of_stop hs) hreset hload
    · rw [hc, hs]
    · rw [hc, State.writeGpr_stop, hs]
  · rw [State.call_setGPR_val, State.readGpr_writeGpr_self]
  · rw [State.call_gprValue_val]
end

section
/-! SUPPORT. The host's calls and the run that never returns: what a rejected call answers, what a register write
leaves, which calls keep the binding, and a branch to itself (spec/70_reset_and_hazards.md R200 to R207, R214). -/

namespace Sys2Proof.Machine

/-- Outside 0 to 31 an index names no register (R204, R205). -/
theorem hostReg?_eq_none {index : Int} (h : index < 0 ∨ 31 < index) : hostReg? index = none :=
  dif_neg (by omega)

theorem gprBecomes_writeGpr (s : State) (r : RegIdx) (v : Word) : GprBecomes r v s (s.writeGpr r v) :=
  ⟨State.readGpr_writeGpr_self s r v, fun _ => State.readGpr_writeGpr_of_ne s v⟩

theorem sameEngine_writeGpr (s : State) (r : RegIdx) (v : Word) : SameEngine s (s.writeGpr r v) :=
  ⟨rfl, fun _ => rfl, rfl, rfl, rfl⟩

/-- The offset -1 takes back the 4 bytes that the branch adds (R150). -/
theorem branchTarget_neg_one (v : Word) : branchTarget v 0xFFFF#16 = v := by
  have hback : 4#32 + BitVec.ofInt 32 (4 * (0xFFFF#16).toInt) = 0#32 := by decide
  rw [branchTarget_eq, BitVec.add_assoc, hback, BitVec.add_zero]

namespace State

/-! ### Rejected calls -/

/-- A sequence longer than `N_MAX` words changes nothing (R203). -/
theorem call_loadProgram_of_lt (s : State) {seq : Program} (h : Config.nMax < seq.length) :
    s.call (.loadProgram seq) = (.rejected, s) := by
  have hnone : loadProgram? seq = none := by
    rw [Option.eq_none_iff_forall_ne_some]
    intro t ht
    exact absurd (loadProgram?_eq_some_iff.1 ht).1 (Nat.not_le.2 h)
  rw [call, hnone, acceptOrReject]

theorem call_setGPR_of_not_reg (s : State) {index : Int} (v : Word) (h : index < 0 ∨ 31 < index) :
    s.call (.setGPR index v) = (.rejected, s) := by
  rw [call, setGpr?, hostReg?_eq_none h, Option.map_none, acceptOrReject]

theorem call_gprValue_of_not_reg (s : State) {index : Int} (h : index < 0 ∨ 31 < index) :
    s.call (.gprValue index) = (.rejected, s) := by
  simp only [call, gprValue?, hostReg?_eq_none h, Option.map_none]

/-! ### The binding across calls, and what a reset keeps of it -/

/-- Every call but `loadProgram` keeps the binding (R32, R200). -/
theorem call_prog {s : State} {c : HostCall} (h : ∀ seq, c ≠ .loadProgram seq) : (s.call c).2.prog = s.prog := by
  cases c with
  | loadProgram seq => exact absurd rfl (h seq)
  | runProgram fuel => rw [call_runProgram_state, stepProgram_prog]
  | stepProgram n => exact stepProgram_prog s n
  | reset => exact hostReset_prog s
  | setGPR index value =>
    refine acceptOrReject_keeps (P := fun t => t.prog = s.prog) rfl fun t ht => ?_
    obtain ⟨r, -, rfl⟩ := setGpr?_eq_some_iff.1 ht
    exact writeGpr_prog s r value
  | gprValue index => rw [call_gprValue_state]
  | hi => rfl
  | lo => rfl

theorem calls_prog {s : State} {cs : List HostCall} (h : ∀ c ∈ cs, ∀ seq, c ≠ .loadProgram seq) :
    (calls cs s).prog = s.prog := by
  induction cs generalizing s with
  | nil => rfl
  | cons c cs ih =>
    obtain ⟨hc, hcs⟩ := List.forall_mem_cons.1 h
    rw [calls, ih hcs, call_prog hc]

/-- A reset keeps nothing but the binding (R33, R200). -/
theorem hostReset_congr {s t : State} (h : s.prog = t.prog) : s.hostReset = t.hostReset := by
  rw [hostReset, hostReset, h]

/-- An accepted `loadProgram` leaves the loaded state (R30, R203). -/
theorem loaded_of_loadProgram? {seq : Program} {t : State} (h : loadProgram? seq = some t) : t.Loaded := by
  obtain ⟨-, rfl⟩ := loadProgram?_eq_some_iff.1 h
  exact ⟨Option.some_ne_none seq, rfl⟩

/-! ### A run without an end -/

/-- The fetch does not read `PC`, so a redirection to `nPC` itself fetches the same word. -/
theorem redirect_npc_fetch (s : State) : (s.redirect s.npc).fetch = s.fetch := rfl

/-- The self-branch is fetched again after it has executed (R150, R214). -/
theorem fetch_engineStep_selfBranch {s : State} (h : s.fetch = .ok 0x1000FFFF#32) :
    s.engineStep.fetch = .ok 0x1000FFFF#32 := by
  have hd : decode 0x1000FFFF#32 = .instr (.beq 0 0 0xFFFF#16) := by decide
  have hstep : step s = .next (s.redirect s.npc) := by
    rw [step_of_instr h hd, exec_beq_taken _ rfl, branchTarget_neg_one]
  rw [engineStep_of_next hstep, redirect_npc_fetch, h]

end State

end Sys2Proof.Machine
end

section
/-! CERTIFICATE. The host's calls, reset, and a run that never returns (spec/70_reset_and_hazards.md). -/

open Sys2Proof Sys2Proof.Machine

/-- Settles O49: within the bound the call leaves the reset registers with the sequence bound, past it nothing. -/
theorem loadProgramBindsOrRejects : Obligations.LoadProgramBindsOrRejects := by
  unfold Obligations.LoadProgramBindsOrRejects
  refine fun s seq => ⟨fun hle => ?_, fun hlt => State.call_loadProgram_of_lt s hlt⟩
  rw [State.call_loadProgram_of_le s hle]
  exact ⟨rfl, rfl, registersReset_hostReset { State.reset with prog := some seq },
    State.loaded_of_loadProgram? (State.loadProgram?_eq_some_iff.2 ⟨hle, rfl⟩)⟩

/-- Settles O50: an index names a register or none; in the first case the call is one register access, in the second a
rejection. -/
theorem accessorsReadAndWriteByIndex : Obligations.AccessorsReadAndWriteByIndex := by
  unfold Obligations.AccessorsReadAndWriteByIndex
  refine fun s index v => ⟨fun r hr => ?_, fun h => ?_, rfl, rfl⟩
  · subst hr
    exact ⟨⟨s.writeGpr r v, State.call_setGPR_val s r v, gprBecomes_writeGpr s r v, ⟨rfl, rfl⟩, rfl, rfl,
      sameEngine_writeGpr s r v⟩, State.call_gprValue_val s r⟩
  · exact ⟨State.call_setGPR_of_not_reg s v h, State.call_gprValue_of_not_reg s h⟩

/-- Settles O52: the calls keep the binding, a reset depends on nothing else, and the loaded state is its own reset. -/
theorem resetReproducesAFreshRun : Obligations.ResetReproducesAFreshRun := by
  unfold Obligations.ResetReproducesAFreshRun
  intro p fresh cs fuel hload hcs
  obtain ⟨-, hfresh⟩ := State.loaded_of_loadProgram? hload
  rw [State.hostReset_congr (State.calls_prog hcs), ← hfresh]

/-- Settles O55: the self-branch is fetched after any number of steps, so a step is always enabled. -/
theorem selfBranchRunsForever : Obligations.SelfBranchRunsForever := by
  unfold Obligations.SelfBranchRunsForever
  intro s h fuel
  have hfetch : (s.stepProgram fuel).fetch = .ok 0x1000FFFF#32 :=
    State.stepProgram_keeps (P := fun t => t.fetch = .ok 0x1000FFFF#32)
      (fun _ _ => State.fetch_engineStep_selfBranch) fuel h
  have he : (s.stepProgram fuel).enabled = true := (State.enabled_iff_fetch _).2 ⟨_, hfetch⟩
  rw [State.runProgram_eq_ite, he, if_pos rfl]
end

section
/-! CERTIFICATE. The words that the test vectors write out (spec/95_test_vectors.md). -/

open Sys2Proof Sys2Proof.Machine

/-- Settles O28: each mapped word agrees with the encoding of its instruction in the bits that matter (R69, R70), and
the key of the last word stands in neither list. -/
theorem specWordsDecodeAsWritten : Obligations.SpecWordsDecodeAsWritten := by
  unfold Obligations.SpecWordsDecodeAsWritten
  have matched {w : Word} {i : Instr} : w &&& fieldMask i = encode i → decode w = .instr i := (decode_iff_match w i).2
  have unmapped : decode 0x8C020000#32 = .unmapped 0x023#10 := decode_eq_unmapped_iff.2 (by decide)
  exact ⟨matched (by decide), matched (by decide), matched (by decide), matched (by decide), matched (by decide),
    matched (by decide), matched (by decide), matched (by decide), unmapped⟩
end
